-- ==== Sys2Proof/Word.lean ====
section
/-! DEFINITION. The widths the spec fixes: a byte of the buffer, a command word, an operand.
Bit 0 is the least significant bit of every value (R8). -/

namespace Sys2Proof

/-- One byte of the raw buffer, an unsigned value 0..255 (R8). -/
abbrev Byte := BitVec 8

/-- One 32-bit command word, `cmd[31:0]` (R70). -/
abbrev Word := BitVec 32

/-- The 128-bit operand `OPA[127:0]` and the 128-bit result `RES` (R30, R70). -/
abbrev Operand := BitVec 128

end Sys2Proof
end

