-- ==== Sys2Proof/Config.lean ====
section
/-! DEFINITION. The parameters of rule R7, at the values the spec gives them.
The spec leaves no value of any command open (R17, R79, R222), so there is no free value here. -/

namespace Sys2Proof.Config

/-- `LEN_PLAIN`: the length in bytes of a message without authentication (R7). -/
@[simp] abbrev lenPlain : Nat := 48

/-- `LEN_AUTH`: the length in bytes of a message with authentication (R7). -/
@[simp] abbrev lenAuth : Nat := 68

/-- `BUF_BYTES`: the physical size of the raw buffer (R7, R31). -/
@[simp] abbrev bufBytes : Nat := 68

/-- `NTP_UNIX_OFFSET`: seconds from the NTP epoch to the Unix epoch (R7, R14). -/
@[simp] abbrev ntpUnixOffset : Int := 2208988800

/-- `MS_PER_S`: milliseconds in a second (R7). -/
@[simp] abbrev msPerS : Nat := 1000

/-- `Q_FRAC_BITS`: fractional bits of the wire fixed-point format (R7). -/
@[simp] abbrev qFracBits : Nat := 16

/-- `TS_FRAC_BITS`: fractional bits of the wire timestamp (R7). -/
@[simp] abbrev tsFracBits : Nat := 32

/-- `SEC_FRAC_BITS`: fractional bits of the in-register seconds container (R7, R13). -/
@[simp] abbrev secFracBits : Nat := 32

/-- `W_MAX`: the largest byte width of one access (R7). -/
@[simp] abbrev wMax : Nat := 16

/-- `NFREG`: the number of field registers (R7, R20). -/
@[simp] abbrev nFReg : Nat := 15

end Sys2Proof.Config
end

