-- ==== Sys2Proof/Syntax.lean ====
section
/-! DEFINITION. The 17 commands of the opcode map (R75), one constructor each, with the fields the
format gives them (R71, R72). A field is the unsigned 8-bit (or 16-bit) value of the command word,
used as it stands (R73); its range is a matter of `WellFormed` and of the meaning (R78), because an
out-of-range field is a LEGAL word that raises `OPERAND_RANGE`. -/

namespace Sys2Proof

/-- One command of rule R75. -/
inductive Instr where
  /-- `NEW a`: construct a fresh instance (R151). -/
  | new (a : BitVec 8)
  /-- `DECODE`: buffer to field registers (R155). -/
  | decode
  /-- `ENCODE`: field registers to buffer (R156). -/
  | encode
  /-- `WRF r`: write a field register (R153). -/
  | wrf (a : BitVec 8)
  /-- `RDF r`: read a field register (R154). -/
  | rdf (a : BitVec 8)
  /-- `SETLEN imm16`: set the length of the supplied buffer (R152). -/
  | setlen (imm16 : BitVec 16)
  /-- `STU a, w`: store unsigned, big-endian (R100). -/
  | stu (a w : BitVec 8)
  /-- `LDU a, w`: load unsigned, big-endian (R101). -/
  | ldu (a w : BitVec 8)
  /-- `LDS8 a`: load a signed byte (R102). -/
  | lds8 (a : BitVec 8)
  /-- `STB a, w, n`: store bytes, left-justified, zero-padded (R103). -/
  | stb (a w n : BitVec 8)
  /-- `LDB a, w`: load bytes (R104). -/
  | ldb (a w : BitVec 8)
  /-- `TSENC a`: encode a timestamp (R123). -/
  | tsenc (a : BitVec 8)
  /-- `TSDEC a`: decode a timestamp (R122). -/
  | tsdec (a : BitVec 8)
  /-- `U2N`: Unix seconds to NTP milliseconds (R124). -/
  | u2n
  /-- `N2U`: NTP milliseconds to Unix seconds (R125). -/
  | n2u
  /-- `QENC`: encode Q16.16 (R143). -/
  | qenc
  /-- `QDEC`: decode Q16.16 (R142). -/
  | qdec
  deriving DecidableEq, Repr

/-- The 17 rows of the opcode map, by name (R75). -/
inductive Op where
  | new | decode | encode | wrf | rdf | setlen
  | stu | ldu | lds8 | stb | ldb
  | tsenc | tsdec | u2n | n2u
  | qenc | qdec
  deriving DecidableEq, Repr

/-- The row of the opcode map a command belongs to (R75). -/
def Instr.op : Instr → Op
  | .new _ => .new
  | .decode => .decode
  | .encode => .encode
  | .wrf _ => .wrf
  | .rdf _ => .rdf
  | .setlen _ => .setlen
  | .stu _ _ => .stu
  | .ldu _ _ => .ldu
  | .lds8 _ => .lds8
  | .stb _ _ _ => .stb
  | .ldb _ _ => .ldb
  | .tsenc _ => .tsenc
  | .tsdec _ => .tsdec
  | .u2n => .u2n
  | .n2u => .n2u
  | .qenc => .qenc
  | .qdec => .qdec

end Sys2Proof
end

