-- ==== Sys2Proof/WellFormed.lean ====
section
/-! DEFINITION. Well-formed commands: those whose fields lie in the ranges of rule R78. Every `Instr`
is the reading of a legal word; one that is not well-formed is a command that raises
`OPERAND_RANGE` (R185). Sums are formed on unbounded integers (R53, R73). -/

namespace Sys2Proof

/-- An access of `w` bytes at offset `a` that the block accepts (R105). -/
def accessOk (a w : Nat) : Bool := decide (w ≤ Config.wMax) && decide (a + w ≤ Config.bufBytes)

/-- No field of the command is out of the range rule R78 gives it. -/
def Instr.wellFormed : Instr → Bool
  | .new a => decide (a.toNat ≤ 1)
  | .decode => true
  | .encode => true
  | .wrf a => decide (a.toNat ≤ 14)
  | .rdf a => decide (a.toNat ≤ 14)
  | .setlen _ => true
  | .stu a w => accessOk a.toNat w.toNat
  | .ldu a w => accessOk a.toNat w.toNat
  | .lds8 a => decide (a.toNat ≤ 67)
  | .stb a w n => accessOk a.toNat w.toNat && decide (n.toNat ≤ w.toNat)
  | .ldb a w => accessOk a.toNat w.toNat
  | .tsenc a => decide (a.toNat ≤ 60)
  | .tsdec a => decide (a.toNat ≤ 60)
  | .u2n => true
  | .n2u => true
  | .qenc => true
  | .qdec => true

end Sys2Proof
end

