-- ==== Sys2Proof/Decode.lean ====
section
/-! DEFINITION. From command words to commands and back (`30_encoding.md`): the field extraction of
rules R71 and R72, the opcode map of R75, the match and mask of R76, the total decoding procedure of
R83, the encoder, and the command spelling of R81 with the pseudo-commands of R82. -/

namespace Sys2Proof

/-! ## Fields of a command word (R71, R72) -/

/-- `op`, bits 31:24. -/
def Word.opField (cmd : Word) : BitVec 8 := cmd.extractLsb' 24 8

/-- `a`, bits 23:16. -/
def Word.aField (cmd : Word) : BitVec 8 := cmd.extractLsb' 16 8

/-- `w`, bits 15:8. -/
def Word.wField (cmd : Word) : BitVec 8 := cmd.extractLsb' 8 8

/-- `n`, bits 7:0. -/
def Word.nField (cmd : Word) : BitVec 8 := cmd.extractLsb' 0 8

/-- `imm16`, bits 15:0 (format L). -/
def Word.imm16Field (cmd : Word) : BitVec 16 := cmd.extractLsb' 0 16

/-! ## The opcode map (R75, R76) -/

/-- The opcode of each row (R75). -/
def Op.code : Op → BitVec 8
  | .new => 0x01
  | .decode => 0x02
  | .encode => 0x03
  | .wrf => 0x04
  | .rdf => 0x05
  | .setlen => 0x06
  | .stu => 0x10
  | .ldu => 0x11
  | .lds8 => 0x12
  | .stb => 0x13
  | .ldb => 0x14
  | .tsenc => 0x20
  | .tsdec => 0x21
  | .u2n => 0x22
  | .n2u => 0x23
  | .qenc => 0x30
  | .qdec => 0x31

/-- The rows in the order of the table of R75. -/
def Op.all : List Op :=
  [.new, .decode, .encode, .wrf, .rdf, .setlen, .stu, .ldu, .lds8, .stb, .ldb,
   .tsenc, .tsdec, .u2n, .n2u, .qenc, .qdec]

/-- "the row of rule R76 whose match[31:24] == op", if there is one (R83). -/
def Op.ofByte (b : BitVec 8) : Option Op := Op.all.find? fun op => op.code == b

/-- Column `match` of R76. -/
def Op.matchWord : Op → Word
  | .new => 0x01000000
  | .decode => 0x02000000
  | .encode => 0x03000000
  | .wrf => 0x04000000
  | .rdf => 0x05000000
  | .setlen => 0x06000000
  | .stu => 0x10000000
  | .ldu => 0x11000000
  | .lds8 => 0x12000000
  | .stb => 0x13000000
  | .ldb => 0x14000000
  | .tsenc => 0x20000000
  | .tsdec => 0x21000000
  | .u2n => 0x22000000
  | .n2u => 0x23000000
  | .qenc => 0x30000000
  | .qdec => 0x31000000

/-- Column `mask` of R76: `op` and every field that must be zero. -/
def Op.mask : Op → Word
  | .new => 0xFF00FFFF
  | .decode => 0xFFFFFFFF
  | .encode => 0xFFFFFFFF
  | .wrf => 0xFF00FFFF
  | .rdf => 0xFF00FFFF
  | .setlen => 0xFFFF0000
  | .stu => 0xFF0000FF
  | .ldu => 0xFF0000FF
  | .lds8 => 0xFF00FFFF
  | .stb => 0xFF000000
  | .ldb => 0xFF0000FF
  | .tsenc => 0xFF00FFFF
  | .tsdec => 0xFF00FFFF
  | .u2n => 0xFFFFFFFF
  | .n2u => 0xFFFFFFFF
  | .qenc => 0xFFFFFFFF
  | .qdec => 0xFFFFFFFF

/-! ## Decoding (R77, R83) -/

/-- Why a word is illegal (R77). Both raise `ILLEGAL_COMMAND`. -/
inductive DecodeError where
  /-- `op` is not one of the 17 values of R75. -/
  | unassignedOpcode
  /-- A field that R76 says must be zero is not zero. -/
  | nonzeroField
  deriving DecidableEq, Repr

/-- The command of a row, its fields taken from the word (R71, R72). -/
def Op.build (op : Op) (cmd : Word) : Instr :=
  match op with
  | .new => .new cmd.aField
  | .decode => .decode
  | .encode => .encode
  | .wrf => .wrf cmd.aField
  | .rdf => .rdf cmd.aField
  | .setlen => .setlen cmd.imm16Field
  | .stu => .stu cmd.aField cmd.wField
  | .ldu => .ldu cmd.aField cmd.wField
  | .lds8 => .lds8 cmd.aField
  | .stb => .stb cmd.aField cmd.wField cmd.nField
  | .ldb => .ldb cmd.aField cmd.wField
  | .tsenc => .tsenc cmd.aField
  | .tsdec => .tsdec cmd.aField
  | .u2n => .u2n
  | .n2u => .n2u
  | .qenc => .qenc
  | .qdec => .qdec

/-- The decoding procedure of R83, up to `ILLEGAL_COMMAND`: total on all words. -/
def decode (cmd : Word) : Except DecodeError Instr :=
  match Op.ofByte cmd.opField with
  | none => .error .unassignedOpcode
  | some op => if cmd &&& op.mask = op.matchWord then .ok (op.build cmd) else .error .nonzeroField

/-! ## Encoding (R71, R72, R81) -/

/-- Format R: `op << 24 | a << 16 | w << 8 | n`. -/
def formatR (op : Op) (a w n : BitVec 8) : Word :=
  op.code.setWidth 32 <<< 24 ||| a.setWidth 32 <<< 16 ||| w.setWidth 32 <<< 8 ||| n.setWidth 32

/-- Format L: `op << 24 | imm16`, bits 23:16 zero. -/
def formatL (op : Op) (imm16 : BitVec 16) : Word :=
  op.code.setWidth 32 <<< 24 ||| imm16.setWidth 32

/-- The word of a command; a field the command does not use is zero (R71). -/
def encode : Instr → Word
  | .new a => formatR .new a 0 0
  | .decode => formatR .decode 0 0 0
  | .encode => formatR .encode 0 0 0
  | .wrf a => formatR .wrf a 0 0
  | .rdf a => formatR .rdf a 0 0
  | .setlen imm16 => formatL .setlen imm16
  | .stu a w => formatR .stu a w 0
  | .ldu a w => formatR .ldu a w 0
  | .lds8 a => formatR .lds8 a 0 0
  | .stb a w n => formatR .stb a w n
  | .ldb a w => formatR .ldb a w 0
  | .tsenc a => formatR .tsenc a 0 0
  | .tsdec a => formatR .tsdec a 0 0
  | .u2n => formatR .u2n 0 0 0
  | .n2u => formatR .n2u 0 0 0
  | .qenc => formatR .qenc 0 0 0
  | .qdec => formatR .qdec 0 0 0

/-- The table's word `w` of `nbits` bits as a command word: the bits above `nbits` are zero. -/
def tableWord (nbits w : Nat) : Word := BitVec.ofNat 32 (w % 2 ^ nbits)

/-- The command the decoder reads from the table's word `w`. -/
def decodeTableWord (nbits w : Nat) : Option Instr :=
  match decode (tableWord nbits w) with
  | .ok i => some i
  | .error _ => none

/-! ## Spelling (R81) and pseudo-commands (R82) -/

/-- The mnemonic of each row, as R75 spells it. -/
def Op.mnemonic : Op → String
  | .new => "NEW"
  | .decode => "DECODE"
  | .encode => "ENCODE"
  | .wrf => "WRF"
  | .rdf => "RDF"
  | .setlen => "SETLEN"
  | .stu => "STU"
  | .ldu => "LDU"
  | .lds8 => "LDS8"
  | .stb => "STB"
  | .ldb => "LDB"
  | .tsenc => "TSENC"
  | .tsdec => "TSDEC"
  | .u2n => "U2N"
  | .n2u => "N2U"
  | .qenc => "QENC"
  | .qdec => "QDEC"

/-- `v` as an 8-bit field, if it fits. -/
def field8 (v : Nat) : Option (BitVec 8) := if v < 256 then some (BitVec.ofNat 8 v) else none

/-- The command of one line: a row and its written arguments (R81). A wrong number of arguments or
one that its field cannot hold is no command. -/
def Op.assemble : Op → List Nat → Option Instr
  | .new, [a] => (field8 a).map .new
  | .decode, [] => some .decode
  | .encode, [] => some .encode
  | .wrf, [a] => (field8 a).map .wrf
  | .rdf, [a] => (field8 a).map .rdf
  | .setlen, [l] => if l < 65536 then some (.setlen (BitVec.ofNat 16 l)) else none
  | .stu, [a, w] => (field8 a).bind fun a => (field8 w).map (.stu a)
  | .ldu, [a, w] => (field8 a).bind fun a => (field8 w).map (.ldu a)
  | .lds8, [a] => (field8 a).map .lds8
  | .stb, [a, w, n] => (field8 a).bind fun a => (field8 w).bind fun w => (field8 n).map (.stb a w)
  | .ldb, [a, w] => (field8 a).bind fun a => (field8 w).map (.ldb a)
  | .tsenc, [a] => (field8 a).map .tsenc
  | .tsdec, [a] => (field8 a).map .tsdec
  | .u2n, [] => some .u2n
  | .n2u, [] => some .n2u
  | .qenc, [] => some .qenc
  | .qdec, [] => some .qdec
  | _, _ => none

/-- Pseudo-command `LDU8 a`: `LDU a, 1` (R82). -/
def pseudoLdu8 (a : BitVec 8) : Instr := .ldu a 1

/-- Pseudo-command `STU8 a`: `STU a, 1` (R82). -/
def pseudoStu8 (a : BitVec 8) : Instr := .stu a 1

/-- The number the bytes of a tag stand for, first character most significant, left-justified in
four bytes (R22, R82). -/
def tagValue (t : List Byte) : Nat :=
  256 ^ (4 - t.length) * t.foldl (fun v b => 256 * v + b.toNat) 0

/-- Pseudo-command `WRTAG "t"` with `t` of 0..4 characters: `WRF REFID` and the operand that goes
with it, bit 32 set (R82). -/
def pseudoWrtag (t : List Byte) : Option (Instr × Operand) :=
  if t.length ≤ 4 then some (.wrf 8, BitVec.ofNat 128 (2 ^ 32 + tagValue t)) else none

end Sys2Proof
end

