-- ==== Sys2Proof/Machine/State.lean ====
section
/-! DEFINITION. Everything the spec gives the block, as plain data (`10_state.md` R20 to R35), and the
two things of the host that one deterministic step needs: the operand port and the inputs the host
has still to present (R23, R33, R219). -/

namespace Sys2Proof.Machine

/-- The error code of the most recent command (R26, R181). -/
inductive ErrCode where
  /-- 0 `OK`: the command completed. -/
  | ok
  /-- 1 `INVALID_LENGTH`: `DECODE` with `BUFLEN` neither 48 nor 68. -/
  | invalidLength
  /-- 2 `ILLEGAL_COMMAND`: no command has this word. -/
  | illegalCommand
  /-- 3 `OPERAND_RANGE`: a field of a legal word is out of range. -/
  | operandRange
  deriving DecidableEq, Repr

/-- The 15 field registers by name (R20). -/
inductive FieldReg where
  | li | vn | mode | stratum | poll | precision | rootDelay | rootDisp | refId
  | refTs | orgTs | rcvTs | xmtTs | keyId | digest
  deriving DecidableEq, Repr

/-- The register's width in bits (R20, column "reg width"). -/
abbrev FieldReg.width : FieldReg → Nat
  | .li | .vn | .mode | .stratum | .poll | .precision => 8
  | .rootDelay | .rootDisp => 64
  | .refId => 33
  | .refTs | .orgTs | .rcvTs | .xmtTs => 64
  | .keyId => 32
  | .digest => 128

/-- The field registers `F[0]`..`F[14]`: the bit patterns they hold (R20, R22). -/
structure Fields where
  /-- `F[0]`, leap indicator. -/
  li : BitVec 8
  /-- `F[1]`, version number. -/
  vn : BitVec 8
  /-- `F[2]`, mode. -/
  mode : BitVec 8
  /-- `F[3]`, stratum. -/
  stratum : BitVec 8
  /-- `F[4]`, poll interval, read as signed. -/
  poll : BitVec 8
  /-- `F[5]`, precision, read as signed. -/
  precision : BitVec 8
  /-- `F[6]`, root delay, signed Q32.32 seconds. -/
  rootDelay : BitVec 64
  /-- `F[7]`, root dispersion, signed Q32.32 seconds. -/
  rootDisp : BitVec 64
  /-- `F[8]`, reference identifier: bit 32 the variant (0 Address, 1 Tag), bits 31:0 the value. -/
  refId : BitVec 33
  /-- `F[9]`, reference timestamp, signed milliseconds since the NTP epoch. -/
  refTs : BitVec 64
  /-- `F[10]`, originate timestamp. -/
  orgTs : BitVec 64
  /-- `F[11]`, receive timestamp. -/
  rcvTs : BitVec 64
  /-- `F[12]`, transmit timestamp. -/
  xmtTs : BitVec 64
  /-- `F[13]`, key identifier. -/
  keyId : BitVec 32
  /-- `F[14]`, message digest, the byte at offset 52 in bits 127:120. -/
  digest : BitVec 128
  deriving DecidableEq, Repr

/-- All fields zero, the fields of a freshly constructed instance (R35, R151). -/
def Fields.zero : Fields :=
  { li := 0, vn := 0, mode := 0, stratum := 0, poll := 0, precision := 0,
    rootDelay := 0, rootDisp := 0, refId := 0,
    refTs := 0, orgTs := 0, rcvTs := 0, xmtTs := 0, keyId := 0, digest := 0 }

/-- The raw buffer `BUF` (R31): the bytes that are not zero, by offset. An offset below 68 that is
not listed holds 0x00, its reset value (R35). DESIGN CHOICE, safe (notes/assumptions/8). -/
abbrev Memory := List Host.Cell

/-- What the host can do to the block at its command port (R219, R220). -/
inductive HostInput where
  /-- A command word and an operand, presented together. -/
  | command (cmd : Word) (opa : Operand)
  /-- Reset, presented between two commands. DESIGN CHOICE (notes/assumptions/5). -/
  | reset
  deriving DecidableEq, Repr

/-- Faults: there is none. Every outcome of a command is a defined next state (R180, R197), so no
constructor is needed: nobody raises one, which forgets no behaviour (safe). -/
inductive Fault where
  deriving DecidableEq, Repr

/-- Refusals. -/
inductive Refusal where
  /-- The command with this mnemonic has no meaning yet. Raised only by a refused arm of `exec`;
  no arm is refused. Safe: the machine stops where the block goes on. -/
  | notModelled (mnemonic : String)
  deriving DecidableEq, Repr

/-- The state of the block, and what the host has on its side of the port. -/
structure State where
  /-- `F[0]`..`F[14]` (R20). -/
  f : Fields
  /-- `BUF[0]`..`BUF[67]` (R31). -/
  buf : Memory
  /-- `AUTH` (R24). -/
  auth : Bool
  /-- `BUFLEN` (R25). -/
  buflen : BitVec 16
  /-- `ERR` (R26). -/
  err : ErrCode
  /-- `STICKY` (R27). -/
  sticky : Bool
  /-- `RES` (R30). -/
  res : Operand
  /-- `OPA`: the operand at the port of the command being performed, an input and no state of the
  block (R33). The model's own field: DESIGN CHOICE, safe (notes/assumptions/1). -/
  opa : Operand
  /-- The inputs the host has still to present, next one first: the rest of its program (R23, R221).
  The model's own field: DESIGN CHOICE, safe (notes/assumptions/2). -/
  pending : List HostInput
  deriving DecidableEq, Repr

/-- The block right after reset (R35, R210), with a host that has nothing to present.
`opa` and `pending` are the model's own fields (DESIGN CHOICE, unsafe, notes/assumptions/3). -/
def State.reset : State :=
  { f := Fields.zero, buf := [], auth := false, buflen := 48, err := .ok, sticky := false,
    res := 0, opa := 0, pending := [] }

end Sys2Proof.Machine
end

