-- ==== Sys2Proof/Machine/Numeric.lean ====
section
/-! DEFINITION. The numeric conversions of the spec on exact integers: big-endian bytes (R11), the
timestamp functions `ts_dec` and `ts_enc` (R120, R121), the fixed-point functions `q_dec` and
`q_enc` (R140, R141), and `round` on rationals (R10).

In products of naturals the constant stands first: Lean's kernel then does not count up to it when it
compares open terms. -/

namespace Sys2Proof.Machine

/-! ## Big-endian primitives (R11) -/

/-- `be_enc(v, w)`: `w` bytes, most significant first, bits of `v` at and above `8*w` dropped. -/
def beEnc (v : Nat) : Nat → List Byte
  | 0 => []
  | w + 1 => BitVec.ofNat 8 (v >>> (8 * w)) :: beEnc v w

/-- `be_dec(bytes)`: the first byte is the most significant. -/
def beDec : List Byte → Nat
  | [] => 0
  | b :: bs => 256 ^ bs.length * b.toNat + beDec bs

/-! ## Timestamps (`41_timestamp_codec.md`) -/

/-- `ts_dec(bytes)` of 8 bytes: whole seconds in milliseconds plus the floor of the fraction (R120). -/
def tsDec (bytes : List Byte) : Nat :=
  Config.msPerS * beDec (bytes.take 4) +
    Config.msPerS * beDec ((bytes.drop 4).take 4) / 2 ^ Config.tsFracBits

/-- The fraction word of a remainder of `r` milliseconds: `(r * 2^32) div 1000` (R121). -/
def tsFrac (r : Nat) : Nat := 2 ^ Config.tsFracBits * r / Config.msPerS

/-- `ts_enc(ms)`: seconds masked to 32 bits, then the fraction; `div` and `mod` are floored, the
remainder is in 0..999 also for a negative `ms` (R10, R121). -/
def tsEnc (ms : Int) : List Byte :=
  beEnc (BitVec.ofInt 32 (ms / (Config.msPerS : Int))).toNat 4 ++
    beEnc (tsFrac (ms % (Config.msPerS : Int)).toNat) 4

/-- The epoch shift of `U2N`: `(u + 2208988800) * 1000`, exact (R124). -/
def unixToNtpMillis (u : Int) : Int := (u + Config.ntpUnixOffset) * (Config.msPerS : Int)

/-! ## Fixed point (`42_fixed_point_codec.md`) -/

/-- `round(q)` on rationals: nearest integer, an exact half away from zero (R10). -/
def roundHalfAway (q : ℚ) : ℤ := (SignType.sign q : ℤ) * ⌊|q| + 1 / 2⌋

/-- `q_dec(raw)` on the container: `raw << 16`, never negative (R140). -/
def qDec (raw : BitVec 32) : BitVec 64 :=
  BitVec.ofNat 64 (2 ^ (Config.secFracBits - Config.qFracBits) * raw.toNat)

/-- `R` of R141 on the container: `X / 2^16` rounded, an exact half away from zero. -/
def qRound (x : Int) : Int :=
  if 0 ≤ x then (x + 0x8000) / 2 ^ 16 else -((-x + 0x8000) / 2 ^ 16)

/-- `q_enc` on the container: the rounded value masked to 32 bits (R141). -/
def qEnc (x : BitVec 64) : BitVec 32 := BitVec.ofInt 32 (qRound x.toInt)

end Sys2Proof.Machine
end

