-- ==== Sys2Proof/Machine/Ops.lean ====
section
/-! DEFINITION. The named operations over the buffer and the registers, and how a command ends: it
completes or raises (R12, R51, R53, R180, R184). -/

namespace Sys2Proof.Machine

/-! ## The buffer (`20_memory.md`) -/

/-- What an offset that is not listed reads as: the reset contents (R35). -/
def Memory.unlisted : Byte := 0

/-- `BUF[a]`. Reading has no side effect (R51). -/
def Memory.read : Memory → Nat → Byte
  | [], _ => Memory.unlisted
  | (x, b) :: m, a => if x = a then b else Memory.read m a

/-- `BUF[a] <- b`, and no other byte (R51); the listing stays in its canonical form. -/
def Memory.write : Memory → Nat → Byte → Memory
  | [], a, b => if b = Memory.unlisted then [] else [(a, b)]
  | (x, c) :: m, a, b =>
    if x < a then (x, c) :: Memory.write m a b
    else
      let rest := if x = a then m else (x, c) :: m
      if b = Memory.unlisted then rest else (a, b) :: rest

/-- `MemRead(a, n)`: the bytes at `a..a+n-1`, lowest offset first (R12). -/
def Memory.readBytes (m : Memory) (a : Nat) : Nat → List Byte
  | 0 => []
  | n + 1 => m.read a :: Memory.readBytes m (a + 1) n

/-- `MemWrite(a, n, bytes)` with `n` the number of bytes (R12). -/
def Memory.writeBytes (m : Memory) (a : Nat) : List Byte → Memory
  | [] => m
  | b :: bs => Memory.writeBytes (m.write a b) (a + 1) bs

/-- A buffer of 68 zero bytes. -/
def Memory.zero : Memory := []

/-- The canonical form, for the entries at or above offset `lo`: offsets strictly rising, all below
68, no entry equal to what an unlisted offset reads as. -/
def Memory.wfFrom : Nat → Memory → Bool
  | _, [] => true
  | lo, (x, b) :: m =>
    decide (lo ≤ x) && decide (x < Config.bufBytes) && decide (b ≠ Memory.unlisted) && Memory.wfFrom (x + 1) m

/-- The listing is in canonical form, so that equal buffers are equal data. -/
def Memory.wf (m : Memory) : Bool := Memory.wfFrom 0 m

/-! ## One update for each piece of state -/

/-- Write all field registers. -/
def State.setF (s : State) (f : Fields) : State := { s with f := f }
/-- Write `BUF`. -/
def State.setBuf (s : State) (m : Memory) : State := { s with buf := m }
/-- Write `AUTH`. -/
def State.setAuth (s : State) (b : Bool) : State := { s with auth := b }
/-- Write `BUFLEN`. -/
def State.setBuflen (s : State) (l : BitVec 16) : State := { s with buflen := l }
/-- Write `ERR`. -/
def State.setErr (s : State) (e : ErrCode) : State := { s with err := e }
/-- Write `STICKY`. -/
def State.setSticky (s : State) (b : Bool) : State := { s with sticky := b }
/-- Write `RES`. -/
def State.setRes (s : State) (v : Operand) : State := { s with res := v }
/-- Put an operand at the port. -/
def State.setOpa (s : State) (v : Operand) : State := { s with opa := v }
/-- Replace the inputs the host has still to present. -/
def State.setPending (s : State) (l : List HostInput) : State := { s with pending := l }

/-! ## How a command ends (`60_exceptions.md`) -/

/-- What a step of this machine answers. -/
abbrev Result := Host.Outcome State Fault Refusal

/-- The command completes: its changes are in `s`, and `ERR <- 0` (R180). `STICKY` stays (R27). -/
def complete (s : State) : Result := .next (s.setErr .ok)

/-- `raise E` (R184): `ERR <- code(E)`, `STICKY <- 1`, and nothing else. This is the whole of taking
an error: no state is saved, control goes nowhere, and nothing is returned from (R189, R190). -/
def raise (e : ErrCode) (s : State) : Result := .next ((s.setErr e).setSticky true)

/-- The command completes in `t` when its fields are in range, else it raises `OPERAND_RANGE` and
does nothing (R53, R185). -/
def inRange (ok : Bool) (t s : State) : Result := if ok then complete t else raise .operandRange s

/-! ## The message instance (R150) -/

/-- The length of a message of the variant `auth`: `LEN_AUTH` or `LEN_PLAIN` (R7, R25). -/
def messageLength (auth : Bool) : BitVec 16 :=
  if auth then BitVec.ofNat 16 Config.lenAuth else BitVec.ofNat 16 Config.lenPlain

/-- A freshly constructed instance: all fields zero, a zero buffer, the variant and its length.
`RES` and `STICKY` stay (R36, R151). -/
def State.construct (s : State) (auth : Bool) : State :=
  (((s.setF Fields.zero).setBuf Memory.zero).setAuth auth).setBuflen (messageLength auth)

/-! ## The command port (R219) -/

/-- The host presents the operand `opa` with a command; `rest` is what it has still to present. -/
def State.present (s : State) (opa : Operand) (rest : List HostInput) : State :=
  (s.setOpa opa).setPending rest

/-- The host resets the block: the reset state, the host keeping what it has still to present. -/
def State.hostReset (rest : List HostInput) : State := State.reset.setPending rest

/-- No command is presented: "The block never acts without a command" (R220). -/
def idle (s : State) : Result := .next s

end Sys2Proof.Machine
end

