-- ==== Sys2Proof/Machine/Operands.lean ====
section
/-! DEFINITION. The operand forms: the field registers by index (R20), the offset and width ranges
(R53, R78), the slices of `OPA` each command reads (R74), and the containers of `RES` (R30, R13). -/

namespace Sys2Proof.Machine

/-! ## Field registers by index (R20, R32) -/

/-- The register of index `r`; 15 and above name none. -/
def FieldReg.ofIndex : Nat → Option FieldReg
  | 0 => some .li
  | 1 => some .vn
  | 2 => some .mode
  | 3 => some .stratum
  | 4 => some .poll
  | 5 => some .precision
  | 6 => some .rootDelay
  | 7 => some .rootDisp
  | 8 => some .refId
  | 9 => some .refTs
  | 10 => some .orgTs
  | 11 => some .rcvTs
  | 12 => some .xmtTs
  | 13 => some .keyId
  | 14 => some .digest
  | _ => none

/-- The index of a register. -/
def FieldReg.index : FieldReg → Nat
  | .li => 0
  | .vn => 1
  | .mode => 2
  | .stratum => 3
  | .poll => 4
  | .precision => 5
  | .rootDelay => 6
  | .rootDisp => 7
  | .refId => 8
  | .refTs => 9
  | .orgTs => 10
  | .rcvTs => 11
  | .xmtTs => 12
  | .keyId => 13
  | .digest => 14

/-- Whether `RDF` reads the register as signed (R20 column "Kind", R154). -/
def FieldReg.signed : FieldReg → Bool
  | .poll | .precision | .rootDelay | .rootDisp | .refTs | .orgTs | .rcvTs | .xmtTs => true
  | .li | .vn | .mode | .stratum | .refId | .keyId | .digest => false

/-- `F[r]`: the stored pattern, of the register's width (R12). -/
def Fields.get (f : Fields) : (r : FieldReg) → BitVec r.width
  | .li => f.li
  | .vn => f.vn
  | .mode => f.mode
  | .stratum => f.stratum
  | .poll => f.poll
  | .precision => f.precision
  | .rootDelay => f.rootDelay
  | .rootDisp => f.rootDisp
  | .refId => f.refId
  | .refTs => f.refTs
  | .orgTs => f.orgTs
  | .rcvTs => f.rcvTs
  | .xmtTs => f.xmtTs
  | .keyId => f.keyId
  | .digest => f.digest

/-- `F[r] <- v` (R12). -/
def Fields.set (f : Fields) : (r : FieldReg) → BitVec r.width → Fields
  | .li, v => { f with li := v }
  | .vn, v => { f with vn := v }
  | .mode, v => { f with mode := v }
  | .stratum, v => { f with stratum := v }
  | .poll, v => { f with poll := v }
  | .precision, v => { f with precision := v }
  | .rootDelay, v => { f with rootDelay := v }
  | .rootDisp, v => { f with rootDisp := v }
  | .refId, v => { f with refId := v }
  | .refTs, v => { f with refTs := v }
  | .orgTs, v => { f with orgTs := v }
  | .rcvTs, v => { f with rcvTs := v }
  | .xmtTs, v => { f with xmtTs := v }
  | .keyId, v => { f with keyId := v }
  | .digest, v => { f with digest := v }

/-- What `RDF` shows of a register: sign-extended for the signed kinds, else zero-extended (R154). -/
def Fields.show128 (f : Fields) (r : FieldReg) : Operand :=
  if r.signed then (f.get r).signExtend 128 else (f.get r).setWidth 128

/-- `F[8][31:0]`, the value of the reference identifier (R22). -/
def Fields.refIdValue (f : Fields) : BitVec 32 := f.refId.setWidth 32

/-- `F[8][32]`, its variant: true for a Tag (R22). -/
def Fields.refIdIsTag (f : Fields) : Bool := f.refId.getLsbD 32

/-! ## Ranges (R53, R78) -/

/-- An access of `n` bytes at offset `a` touches no offset above 67, on unbounded integers (R53). -/
def inBuffer (a n : Nat) : Bool := decide (a + n ≤ Config.bufBytes)

/-- The range of `STU`, `LDU`, `STB`, `LDB` (R105). -/
def accessInRange (a w : Nat) : Bool := decide (w ≤ Config.wMax) && inBuffer a w

/-! ## The operand (R74) and the result (R30) -/

/-- `OPA[8n-1:0]` as an unsigned number: `OPA mod 2^(8n)`, 0 when `n = 0`. -/
def State.opaBytes (s : State) (n : Nat) : Nat := s.opa.toNat % 2 ^ (8 * n)

/-- `OPA[63:0]`. -/
def State.opa64 (s : State) : BitVec 64 := s.opa.setWidth 64

/-- `OPA[31:0]`. -/
def State.opa32 (s : State) : BitVec 32 := s.opa.setWidth 32

/-- How many bits of `OPA` a command reads, from bit 0 up (R74); the others are ignored. -/
def operandBits : Instr → Nat
  | .stu _ w => 8 * w.toNat
  | .stb _ _ n => 8 * n.toNat
  | .wrf a =>
    match FieldReg.ofIndex a.toNat with
    | none => 0
    | some r => r.width
  | .tsenc _ | .u2n | .n2u | .qenc => 64
  | .qdec => 32
  | .new _ | .decode | .encode | .rdf _ | .setlen _ | .ldu _ _ | .lds8 _ | .ldb _ _ | .tsdec _ => 0

/-- An unsigned number as a result, zero-extended to 128 bits. -/
def resUnsigned (v : Nat) : Operand := BitVec.ofNat 128 v

/-- The number the `w` bytes at offset `a` hold, big-endian (R50). -/
def State.bufUint (s : State) (a w : Nat) : Nat := beDec (s.buf.readBytes a w)

end Sys2Proof.Machine
end

