-- ==== Sys2Proof/Machine/Flags.lean ====
section
/-! DEFINITION. The flags and the output ports: `ERR` as a code (R26, R181), the combinational view
`TSUNSET` (R28), `STATUS` (R29), and the values the host always sees (R219). -/

namespace Sys2Proof.Machine

/-- The 2-bit code of `ERR` (R181). -/
def ErrCode.code : ErrCode → BitVec 2
  | .ok => 0
  | .invalidLength => 1
  | .illegalCommand => 2
  | .operandRange => 3

/-- A timestamp register reads as "not set": it is exactly 0 (R28, R130). -/
def isUnset (ts : BitVec 64) : Bool := ts == 0

/-- `TSUNSET[3:0]`, bit 0 for `REFTS` up to bit 3 for `XMTTS` (R28). -/
def State.tsUnset (s : State) : BitVec 4 :=
  BitVec.ofBool (isUnset s.f.xmtTs) ++ BitVec.ofBool (isUnset s.f.rcvTs) ++
    BitVec.ofBool (isUnset s.f.orgTs) ++ BitVec.ofBool (isUnset s.f.refTs)

/-- `STATUS`: `TSUNSET` in bits 7:4, `STICKY` in bit 3, `ERR` in bits 2:1, `AUTH` in bit 0 (R29). -/
def State.status (s : State) : BitVec 8 :=
  s.tsUnset ++ BitVec.ofBool s.sticky ++ s.err.code ++ BitVec.ofBool s.auth

/-- The output ports of R219. -/
structure Outputs where
  /-- `STATUS`. -/
  status : BitVec 8
  /-- `BUFLEN`. -/
  buflen : BitVec 16
  /-- `RES`. -/
  res : Operand
  deriving DecidableEq, Repr

/-- What the host sees at the output ports after a command (R219). -/
def State.outputs (s : State) : Outputs :=
  { status := s.status, buflen := s.buflen, res := s.res }

end Sys2Proof.Machine
end

