-- ==== Sys2Proof/Machine/FixedPoint.lean ====
section
/-! DEFINITION. The fixed-point codec: `QENC`, `QDEC` (`42_fixed_point_codec.md`). -/

namespace Sys2Proof.Machine

/-- `QENC`: `OPA[63:0]` seconds, signed Q32.32, rounded to a Q16.16 word (R143). -/
def execQenc (s : State) : Result := complete (s.setRes ((qEnc s.opa64).setWidth 128))

/-- `QDEC`: the raw word `OPA[31:0]` as Q32.32 seconds, unsigned (R142). -/
def execQdec (s : State) : Result := complete (s.setRes ((qDec s.opa32).setWidth 128))

end Sys2Proof.Machine
end

