-- ==== Sys2Proof/Machine/Message.lean ====
section
/-! DEFINITION. The message codec: `NEW`, `SETLEN`, `WRF`, `RDF`, `DECODE`, `ENCODE`
(`43_message_codec.md`), over the wire layout of R56. -/

namespace Sys2Proof.Machine

/-- `NEW a`: construct a fresh instance of the variant `a` (R151). -/
def execNew (a : BitVec 8) (s : State) : Result :=
  inRange (decide (a.toNat ≤ 1)) (s.construct (a == 1)) s

/-- `SETLEN imm16`: `BUFLEN <- imm16`; no length is refused here (R152). -/
def execSetlen (imm16 : BitVec 16) (s : State) : Result := complete (s.setBuflen imm16)

/-- `WRF r`: `F[r] <- OPA[W-1:0]`, masked to the register and not otherwise checked (R153). -/
def execWrf (a : BitVec 8) (s : State) : Result :=
  match FieldReg.ofIndex a.toNat with
  | none => raise .operandRange s
  | some r => complete (s.setF (s.f.set r (s.opa.setWidth r.width)))

/-- `RDF r`: `RES` is `F[r]`, sign-extended for the signed kinds, else zero-extended (R154). -/
def execRdf (a : BitVec 8) (s : State) : Result :=
  match FieldReg.ofIndex a.toNat with
  | none => raise .operandRange s
  | some r => complete (s.setRes (s.f.show128 r))

/-! ## Decode -/

/-- The 32-bit big-endian word at offset `a`. -/
def Memory.word32 (m : Memory) (a : Nat) : BitVec 32 := BitVec.ofNat 32 (beDec (m.readBytes a 4))

/-- The timestamp at offset `a`, as a register holds it. -/
def Memory.timestamp (m : Memory) (a : Nat) : BitVec 64 := BitVec.ofNat 64 (tsDec (m.readBytes a 8))

/-- The 15 fields of the message in the buffer. The authentication fields are read from offsets
48..67 in the 68-byte variant and are 0 otherwise (R155). -/
def decodeFields (m : Memory) (auth : Bool) : Fields :=
  { li := (m.read 0 &&& 0xC0) >>> 6
    vn := (m.read 0 &&& 0x38) >>> 3
    mode := m.read 0 &&& 0x07
    stratum := m.read 1
    poll := m.read 2
    precision := m.read 3
    rootDelay := qDec (m.word32 4)
    rootDisp := qDec (m.word32 8)
    refId := (m.word32 12).setWidth 33
    refTs := m.timestamp 16
    orgTs := m.timestamp 24
    rcvTs := m.timestamp 32
    xmtTs := m.timestamp 40
    keyId := if auth then m.word32 48 else 0
    digest := if auth then BitVec.ofNat 128 (beDec (m.readBytes 52 16)) else 0 }

/-- `DECODE`: the length gate, then all 15 fields and `AUTH` at once (R155, R182). -/
def execDecode (s : State) : Result :=
  if s.buflen = BitVec.ofNat 16 Config.lenPlain ∨ s.buflen = BitVec.ofNat 16 Config.lenAuth then
    let auth := s.buflen == BitVec.ofNat 16 Config.lenAuth
    complete ((s.setAuth auth).setF (decodeFields s.buf auth))
  else raise .invalidLength s

/-! ## Encode -/

/-- Byte 0 of the message: `LI`, `VN`, `MODE` masked to 2, 3, 3 bits (R156). -/
def Fields.headerByte (f : Fields) : Byte :=
  ((f.li &&& 0x03) <<< 6) ||| ((f.vn &&& 0x07) <<< 3) ||| (f.mode &&& 0x07)

/-- Offsets 0..47 of a message, over a zero buffer (R156). -/
def encodePlain (f : Fields) : Memory :=
  let m := Memory.zero.write 0 f.headerByte
  let m := m.write 1 f.stratum
  let m := m.write 2 f.poll
  let m := m.write 3 f.precision
  let m := m.writeBytes 4 (beEnc (qEnc f.rootDelay).toNat 4)
  let m := m.writeBytes 8 (beEnc (qEnc f.rootDisp).toNat 4)
  let m := m.writeBytes 12 (beEnc f.refIdValue.toNat 4)
  let m := m.writeBytes 16 (tsEnc f.refTs.toInt)
  let m := m.writeBytes 24 (tsEnc f.orgTs.toInt)
  let m := m.writeBytes 32 (tsEnc f.rcvTs.toInt)
  m.writeBytes 40 (tsEnc f.xmtTs.toInt)

/-- The whole buffer of a message of the variant `auth`: offsets 48..67 hold the authentication
fields in the 68-byte variant and stay zero otherwise (R156). -/
def encodeMessage (f : Fields) (auth : Bool) : Memory :=
  let m := encodePlain f
  if auth then (m.writeBytes 48 (beEnc f.keyId.toNat 4)).writeBytes 52 (beEnc f.digest.toNat 16)
  else m

/-- `ENCODE`: the buffer and `BUFLEN` from the fields and `AUTH`; it has no failure path (R156). -/
def execEncode (s : State) : Result :=
  complete ((s.setBuf (encodeMessage s.f s.auth)).setBuflen (messageLength s.auth))

end Sys2Proof.Machine
end

