-- ==== Sys2Proof/Machine/Primitive.lean ====
section
/-! DEFINITION. The primitive codec: `STU`, `LDU`, `LDS8`, `STB`, `LDB` (`40_primitive_codec.md`). -/

namespace Sys2Proof.Machine

/-- `STU a, w`: the low `8w` bits of `OPA`, big-endian, to `BUF[a..a+w-1]` (R100). -/
def execStu (a w : BitVec 8) (s : State) : Result :=
  inRange (accessInRange a.toNat w.toNat)
    (s.setBuf (s.buf.writeBytes a.toNat (beEnc (s.opaBytes w.toNat) w.toNat))) s

/-- `LDU a, w`: `RES` is the unsigned number at `BUF[a..a+w-1]` (R101). -/
def execLdu (a w : BitVec 8) (s : State) : Result :=
  inRange (accessInRange a.toNat w.toNat) (s.setRes (resUnsigned (s.bufUint a.toNat w.toNat))) s

/-- `LDS8 a`: `RES` is `BUF[a]`, sign-extended (R102). -/
def execLds8 (a : BitVec 8) (s : State) : Result :=
  inRange (inBuffer a.toNat 1) (s.setRes ((s.buf.read a.toNat).signExtend 128)) s

/-- The `w` bytes `STB` stores: `n` text bytes, first character first, then zeros (R103). -/
def paddedText (s : State) (w n : Nat) : List Byte :=
  beEnc (s.opaBytes n) n ++ List.replicate (w - n) (0 : Byte)

/-- `STB a, w, n`: a byte string of `n` bytes, left-justified and zero-padded, to `BUF[a..a+w-1]`
(R103). -/
def execStb (a w n : BitVec 8) (s : State) : Result :=
  inRange (accessInRange a.toNat w.toNat && decide (n.toNat ≤ w.toNat))
    (s.setBuf (s.buf.writeBytes a.toNat (paddedText s w.toNat n.toNat))) s

/-- `LDB a, w`: `RES` is the byte string at `BUF[a..a+w-1]`, first byte most significant (R104). -/
def execLdb (a w : BitVec 8) (s : State) : Result :=
  inRange (accessInRange a.toNat w.toNat) (s.setRes (resUnsigned (s.bufUint a.toNat w.toNat))) s

end Sys2Proof.Machine
end

