-- ==== Sys2Proof/Machine/Timestamp.lean ====
section
/-! DEFINITION. The timestamp codec: `TSENC`, `TSDEC`, `U2N`, `N2U` (`41_timestamp_codec.md`). -/

namespace Sys2Proof.Machine

/-- `TSENC a`: the 8 bytes of `OPA[63:0]` milliseconds to `BUF[a..a+7]` (R123). -/
def execTsenc (a : BitVec 8) (s : State) : Result :=
  inRange (inBuffer a.toNat 8) (s.setBuf (s.buf.writeBytes a.toNat (tsEnc s.opa64.toInt))) s

/-- `TSDEC a`: `RES` is the millisecond count of `BUF[a..a+7]` (R122). -/
def execTsdec (a : BitVec 8) (s : State) : Result :=
  inRange (inBuffer a.toNat 8) (s.setRes (resUnsigned (tsDec (s.buf.readBytes a.toNat 8)))) s

/-- `U2N`: Unix seconds to NTP milliseconds, wrapped to 64 bits, then sign-extended (R124). -/
def execU2n (s : State) : Result :=
  complete (s.setRes ((BitVec.ofInt 64 (unixToNtpMillis s.opa64.toInt)).signExtend 128))

/-- The pair `N2U` returns: the remaining milliseconds in the upper half, the floored Unix seconds,
two's complement, in the lower (R125). -/
def unixSplit (ms : Int) : Operand :=
  BitVec.ofInt 64 (ms % (Config.msPerS : Int)) ++
    BitVec.ofInt 64 (ms / (Config.msPerS : Int) - Config.ntpUnixOffset)

/-- `N2U`: NTP milliseconds to whole Unix seconds and a millisecond remainder (R125). -/
def execN2u (s : State) : Result := complete (s.setRes (unixSplit s.opa64.toInt))

end Sys2Proof.Machine
end

