-- ==== Sys2Proof/Machine/Dispatch.lean ====
section
/-! DEFINITION. One arm per command: which meaning performs it. -/

namespace Sys2Proof.Machine

def exec (i : Instr) (s : State) : Host.Outcome State Fault Refusal :=
  match i with
  | .new a => Sys2Proof.Machine.execNew a s
  | .decode => Sys2Proof.Machine.execDecode s
  | .encode => Sys2Proof.Machine.execEncode s
  | .wrf a => Sys2Proof.Machine.execWrf a s
  | .rdf a => Sys2Proof.Machine.execRdf a s
  | .setlen imm16 => Sys2Proof.Machine.execSetlen imm16 s
  | .stu a w => Sys2Proof.Machine.execStu a w s
  | .ldu a w => Sys2Proof.Machine.execLdu a w s
  | .lds8 a => Sys2Proof.Machine.execLds8 a s
  | .stb a w n => Sys2Proof.Machine.execStb a w n s
  | .ldb a w => Sys2Proof.Machine.execLdb a w s
  | .tsenc a => Sys2Proof.Machine.execTsenc a s
  | .tsdec a => Sys2Proof.Machine.execTsdec a s
  | .u2n => Sys2Proof.Machine.execU2n s
  | .n2u => Sys2Proof.Machine.execN2u s
  | .qenc => Sys2Proof.Machine.execQenc s
  | .qdec => Sys2Proof.Machine.execQdec s

end Sys2Proof.Machine
end

