-- ==== Sys2Proof/Machine/Step.lean ====
section
/-! DEFINITION. One step: the block performs the next input of the host, whole (R55, R59, R217). -/

namespace Sys2Proof.Machine

/-- The block performs the word `cmd`: an illegal word raises `ILLEGAL_COMMAND` before anything else
about it is tested (R83, R183), any other is the command it decodes to. -/
def perform (cmd : Word) (s : State) : Host.Outcome State Fault Refusal :=
  match decode cmd with
  | .ok i => exec i s
  | .error _ => raise .illegalCommand s

/-- One step: the next input the host presents, or nothing when it presents none. -/
def step (s : State) : Host.Outcome State Fault Refusal :=
  match s.pending with
  | [] => idle s
  | .reset :: rest => .next (State.hostReset rest)
  | .command cmd opa :: rest => perform cmd (s.present opa rest)

/-- `s` with the table's word `w` as the word of the next command the host presents: it takes the
place of the next input's word, with that input's operand, or stands alone with the operand already
at the port. DESIGN CHOICE, safe (notes/assumptions/4). -/
def State.withFetchWord (s : State) (nbits w : Nat) : State :=
  match s.pending with
  | .command _ opa :: rest => s.setPending (.command (tableWord nbits w) opa :: rest)
  | .reset :: rest => s.setPending (.command (tableWord nbits w) s.opa :: rest)
  | [] => s.setPending [.command (tableWord nbits w) s.opa]

end Sys2Proof.Machine
end

