-- ==== Sys2Proof/Machine/HostProcedures.lean ====
section
/-! DEFINITION. The procedures the spec gives the host, as lists of inputs to present, the message a host
transmits (R57, R150, R160, R161, R212), and the lines in which a command is written (R81). They are
uses of the commands and add nothing to the block. -/

namespace Sys2Proof.Machine

/-- The host presents the command `i` with the operand `opa`. -/
def present (i : Instr) (opa : Operand) : HostInput := .command (encode i) opa

/-- `STU a, w` of the bytes at `a..a+w-1` of a datagram, held as a big-endian integer (R160). -/
def storeChunk (d : List Byte) (a w : Nat) : HostInput :=
  present (.stu (BitVec.ofNat 8 a) (BitVec.ofNat 8 w)) (BitVec.ofNat 128 (beDec ((d.drop a).take w)))

/-- The stores that put a datagram of 48 or 68 bytes into `BUF`; none for another length (R160). -/
def storeDatagram (d : List Byte) : List HostInput :=
  if d.length = Config.lenPlain then
    [storeChunk d 0 16, storeChunk d 16 16, storeChunk d 32 16]
  else if d.length = Config.lenAuth then
    [storeChunk d 0 16, storeChunk d 16 16, storeChunk d 32 16, storeChunk d 48 16, storeChunk d 64 4]
  else []

/-- Supplying a received datagram of `L` bytes: its bytes, then `SETLEN L` (65535 for a longer
length), then `DECODE` (R160). -/
def supplyDatagram (d : List Byte) : List HostInput :=
  storeDatagram d ++ [present (.setlen (BitVec.ofNat 16 (min d.length 65535))) 0, present .decode 0]

/-- Setting up a message: `NEW a`, `WRF` for each field given, `ENCODE` (R150, R212). -/
def buildMessage (auth : Bool) (fields : List (FieldReg × Operand)) : List HostInput :=
  present (.new (if auth then 1 else 0)) 0
    :: fields.map (fun p => present (.wrf (BitVec.ofNat 8 p.1.index)) p.2) ++ [present .encode 0]

/-- Reading a message out after `ENCODE`, 16 bytes a load (R161). -/
def readOutMessage (auth : Bool) : List HostInput :=
  [present (.ldb 0 16) 0, present (.ldb 16 16) 0, present (.ldb 32 16) 0]
    ++ if auth then [present (.ldb 48 16) 0, present (.ldb 64 4) 0] else []

/-- The bytes a host transmits: `BUF[0..BUFLEN-1]` and nothing else (R57). Where `SETLEN` has left `BUFLEN`
above 68 the spec names no bytes beyond `BUF[67]`, and this list goes on with 0x00.
DESIGN CHOICE, unsafe (notes/assumptions/11). -/
def State.message (s : State) : List Byte := s.buf.readBytes 0 s.buflen.toNat

/-! ## Written commands (R81), from their parts. DESIGN CHOICE, safe (notes/assumptions/9) -/

/-- An argument of a line: a number, or a field register by its name. -/
inductive Arg where
  /-- Decimal, or hexadecimal with `0x`. -/
  | number (v : Nat)
  /-- The name of a register of R20, for its index. -/
  | register (r : FieldReg)
  deriving DecidableEq, Repr

/-- The operand of a line, after `; OPA =`. -/
inductive WrittenOperand where
  /-- A hexadecimal or decimal integer, which may be negative. -/
  | integer (v : Int)
  /-- A double-quoted string, by its bytes, first character first; for `STB`. -/
  | text (bytes : List Byte)
  deriving DecidableEq, Repr

/-- One line: a mnemonic, its arguments, and an operand if one is written. -/
structure Line where
  /-- The mnemonic. -/
  op : Op
  /-- What stands after it. -/
  args : List Arg
  /-- What stands after `; OPA =`. -/
  operand : Option WrittenOperand
  deriving DecidableEq, Repr

/-- The number an argument stands for: "`WRF MODE` is `WRF 2`". -/
def Arg.value : Arg → Nat
  | .number v => v
  | .register r => r.index

/-- A register name may stand where `a` is a field-register index. -/
def Arg.allowed (op : Op) : Arg → Bool
  | .number _ => true
  | .register _ => op == .wrf || op == .rdf

/-- The command of a line. -/
def Line.instr (l : Line) : Option Instr :=
  if l.args.all (Arg.allowed l.op) then l.op.assemble (l.args.map Arg.value) else none

/-- The operand of a line for the command `i`: a negative decimal is the two's-complement pattern of
the width the command reads; a line without one presents 0, which no such command reads. -/
def Line.opa (l : Line) (i : Instr) : Option Operand :=
  match l.operand with
  | none => some 0
  | some (.integer v) =>
    if 0 ≤ v then some (BitVec.ofInt 128 v) else some ((BitVec.ofInt (operandBits i) v).setWidth 128)
  | some (.text bytes) => if l.op = .stb then some (BitVec.ofNat 128 (beDec bytes)) else none

/-- What the host presents for a line. -/
def Line.input (l : Line) : Option HostInput :=
  l.instr.bind fun i => (l.opa i).map (Machine.present i)

end Sys2Proof.Machine
end

