-- ==== Sys2Proof/Safety.lean ====
section
/-! DEFINITION. What claims call a good state, a frame, and a value held on the wire. -/

namespace Sys2Proof.Machine

/-- The invariant of the block: `BUF` is listed in its canonical form, within offsets 0..67 (R31), and
an error shown in `ERR` is also recorded in `STICKY` (R26, R27). -/
abbrev State.Inv (s : State) : Prop := s.buf.wf = true ∧ (s.err ≠ .ok → s.sticky = true)

/-- The state a command leaves that raises `e` in `s`: `ERR` and `STICKY`, and nothing else (R184). -/
abbrev State.raised (s : State) (e : ErrCode) : State := { s with err := e, sticky := true }

/-- The command raises `OPERAND_RANGE` and does nothing else (R184, R185). -/
abbrev RaisesRange (i : Instr) (s : State) : Prop := exec i s = .next (s.raised .operandRange)

/-- The table of R20: the index of each register, its width, and the field of the state it names. -/
abbrev FieldTable : Prop :=
  (FieldReg.li.index = 0 ∧ FieldReg.li.width = 8 ∧ ∀ f : Fields, f.get .li = f.li) ∧
  (FieldReg.vn.index = 1 ∧ FieldReg.vn.width = 8 ∧ ∀ f : Fields, f.get .vn = f.vn) ∧
  (FieldReg.mode.index = 2 ∧ FieldReg.mode.width = 8 ∧ ∀ f : Fields, f.get .mode = f.mode) ∧
  (FieldReg.stratum.index = 3 ∧ FieldReg.stratum.width = 8 ∧ ∀ f : Fields, f.get .stratum = f.stratum) ∧
  (FieldReg.poll.index = 4 ∧ FieldReg.poll.width = 8 ∧ ∀ f : Fields, f.get .poll = f.poll) ∧
  (FieldReg.precision.index = 5 ∧ FieldReg.precision.width = 8 ∧ ∀ f : Fields, f.get .precision = f.precision) ∧
  (FieldReg.rootDelay.index = 6 ∧ FieldReg.rootDelay.width = 64 ∧ ∀ f : Fields, f.get .rootDelay = f.rootDelay) ∧
  (FieldReg.rootDisp.index = 7 ∧ FieldReg.rootDisp.width = 64 ∧ ∀ f : Fields, f.get .rootDisp = f.rootDisp) ∧
  (FieldReg.refId.index = 8 ∧ FieldReg.refId.width = 33 ∧ ∀ f : Fields, f.get .refId = f.refId) ∧
  (FieldReg.refTs.index = 9 ∧ FieldReg.refTs.width = 64 ∧ ∀ f : Fields, f.get .refTs = f.refTs) ∧
  (FieldReg.orgTs.index = 10 ∧ FieldReg.orgTs.width = 64 ∧ ∀ f : Fields, f.get .orgTs = f.orgTs) ∧
  (FieldReg.rcvTs.index = 11 ∧ FieldReg.rcvTs.width = 64 ∧ ∀ f : Fields, f.get .rcvTs = f.rcvTs) ∧
  (FieldReg.xmtTs.index = 12 ∧ FieldReg.xmtTs.width = 64 ∧ ∀ f : Fields, f.get .xmtTs = f.xmtTs) ∧
  (FieldReg.keyId.index = 13 ∧ FieldReg.keyId.width = 32 ∧ ∀ f : Fields, f.get .keyId = f.keyId) ∧
  (FieldReg.digest.index = 14 ∧ FieldReg.digest.width = 128 ∧ ∀ f : Fields, f.get .digest = f.digest)

/-- `DECODE` passes the length gate (R182). -/
abbrev State.lengthOk (s : State) : Prop := s.buflen = 48 ∨ s.buflen = 68

/-- What a storing command leaves alone: all but `ERR` and the `n` bytes at offset `a` (R107). -/
abbrev StoreFrame (s t : State) (a n : Nat) : Prop :=
  t.f = s.f ∧ t.auth = s.auth ∧ t.buflen = s.buflen ∧ t.sticky = s.sticky ∧ t.res = s.res ∧
  t.opa = s.opa ∧ t.pending = s.pending ∧
  ∀ x, ¬ (a ≤ x ∧ x < a + n) → t.buf.read x = s.buf.read x

/-- What a result-producing command leaves alone: all but `ERR` and `RES`, every byte of `BUF`
included (R30, R107). -/
abbrev ResultFrame (s t : State) : Prop :=
  t.f = s.f ∧ t.auth = s.auth ∧ t.buflen = s.buflen ∧ t.sticky = s.sticky ∧
  t.opa = s.opa ∧ t.pending = s.pending ∧ ∀ x, t.buf.read x = s.buf.read x

/-- The 8 bytes at offset `o` hold `ms` milliseconds: seconds `⌊ms/1000⌋` masked to 32 bits, then the
floor of the remainder in units of 2^-32 s (R121). -/
abbrev HoldsTimestamp (m : Memory) (o : Nat) (ms : Int) : Prop :=
  (beDec (m.readBytes o 4) : ℤ) = ⌊(ms : ℚ) / 1000⌋ % 2 ^ 32 ∧
  (beDec (m.readBytes (o + 4) 4) : ℤ) = ⌊((ms - 1000 * ⌊(ms : ℚ) / 1000⌋ : ℤ) : ℚ) * 2 ^ 32 / 1000⌋

/-- The Q16.16 word of `x` seconds: `round(x * 65536)` masked to 32 bits (R141). -/
abbrev q16Word (x : ℚ) : ℤ := roundHalfAway (x * 65536) % 2 ^ 32

/-- The seconds a Q32.32 container holds (R13). -/
abbrev seconds (x : BitVec 64) : ℚ := (x.toInt : ℚ) / 2 ^ 32

/-- A timestamp of `ms` milliseconds after one trip over the wire (R126). -/
abbrev afterTrip (ms : Int) : Int := if ms % 1000 % 125 = 0 then ms else ms - 1

end Sys2Proof.Machine
end

