-- ==== Sys2Proof/Certificates/Slice0/Obligations.lean ====
section
/-! DEFINITION. The statements for the provers. Each docstring names the rule of spec/ it formalises. -/

open Sys2Proof Sys2Proof.Machine

/-! ## Reset, steps and errors -/

/-- R35: every piece of state has the reset value of the table. -/
def Obligations.ResetLeavesFreshPlainInstance : Prop :=
  (∀ r, State.reset.f.get r = 0) ∧ (∀ x, State.reset.buf.read x = 0) ∧
  State.reset.auth = false ∧ State.reset.buflen = 48 ∧ State.reset.err = .ok ∧
  State.reset.sticky = false ∧ State.reset.tsUnset = 0b1111 ∧ State.reset.status = 0xF0 ∧
  State.reset.res = 0

/-- R210, R220: a reset input puts the block in that state from any state, and the host keeps what it has
still to present (the shape of the reset input is the model's choice, notes/assumptions/5). -/
def Obligations.ResetInputRestoresResetState : Prop :=
  ∀ (s : State) (rest : List HostInput), s.pending = .reset :: rest →
    ∃ t, step s = .next t ∧ t.pending = rest ∧
      (∀ r, t.f.get r = 0) ∧ (∀ x, t.buf.read x = 0) ∧ t.auth = false ∧ t.buflen = 48 ∧
      t.err = .ok ∧ t.sticky = false ∧ t.res = 0 ∧ t.status = 0xF0

/-- R31, R26, R27: the invariant of the block holds at reset (the canonical listing of `BUF` is the model's form,
notes/assumptions/8). -/
def Obligations.ResetMeetsInvariant : Prop := State.reset.Inv

/-- R31, R26, R27: every step from a state that meets the invariant gives one that meets it, so no command
stores outside the 68 bytes (the canonical listing of `BUF` is the model's form, notes/assumptions/8). -/
def Obligations.StepKeepsInvariant : Prop :=
  ∀ s t : State, s.Inv → step s = .next t → t.Inv

/-- R180, R184: every command either completes, with `ERR` 0 and `STICKY` as it was, or raises one error
and changes nothing but `ERR` and `STICKY`; there is no other outcome. -/
def Obligations.CommandCompletesOrOnlyRaises : Prop :=
  ∀ (s : State) (cmd : Word) (opa : Operand) (rest : List HostInput),
    s.pending = .command cmd opa :: rest →
    ∃ t, step s = .next t ∧
      ((t.err = .ok ∧ t.sticky = s.sticky ∧ t.opa = opa ∧ t.pending = rest ∧
          ∃ i, decode cmd = .ok i ∧ exec i { s with opa := opa, pending := rest } = .next t) ∨
       (t.err ≠ .ok ∧ t = State.raised { s with opa := opa, pending := rest } t.err))

/-- R197: the step function is total on defined outcomes: no state, word or operand stops the machine. -/
def Obligations.StepAlwaysAnswersNext : Prop :=
  ∀ s : State, ∃ t, step s = .next t

/-- R219, R83: a presented word that decodes is performed as the command it decodes to, with its operand at
the port and the input consumed (the list of inputs is the model's choice, notes/assumptions/2). -/
def Obligations.StepRunsDecodedCommand : Prop :=
  ∀ (s : State) (cmd : Word) (opa : Operand) (rest : List HostInput) (i : Instr),
    s.pending = .command cmd opa :: rest → decode cmd = .ok i →
    step s = exec i { s with opa := opa, pending := rest }

/-- R220: "The block never acts without a command": with no input presented nothing changes (that a step
exists then is the model's choice, notes/assumptions/2). -/
def Obligations.NoInputChangesNothing : Prop :=
  ∀ s : State, s.pending = [] → step s = .next s

/-- R183: a word that R77 calls illegal raises `ILLEGAL_COMMAND`, whatever else holds. -/
def Obligations.IllegalWordRaisesIllegalCommand : Prop :=
  ∀ (s : State) (cmd : Word) (opa : Operand) (rest : List HostInput),
    s.pending = .command cmd opa :: rest →
    ((∀ op : Op, op.code ≠ cmd.opField) ∨
      (∃ op : Op, op.code = cmd.opField ∧ cmd &&& op.mask ≠ op.matchWord)) →
    step s = .next (State.raised { s with opa := opa, pending := rest } .illegalCommand)

/-- R188: the one error a command raises is the first that applies: the word, then the ranges, then the
length gate; and a command to which none applies completes. -/
def Obligations.FirstErrorThatAppliesIsRaised : Prop :=
  ∀ (s : State) (cmd : Word) (opa : Operand) (rest : List HostInput),
    s.pending = .command cmd opa :: rest →
    (∀ e, decode cmd = .error e →
      step s = .next (State.raised { s with opa := opa, pending := rest } .illegalCommand)) ∧
    (∀ i, decode cmd = .ok i → i.wellFormed = false →
      step s = .next (State.raised { s with opa := opa, pending := rest } .operandRange)) ∧
    (decode cmd = .ok .decode → ¬ s.lengthOk →
      step s = .next (State.raised { s with opa := opa, pending := rest } .invalidLength)) ∧
    (∀ i, decode cmd = .ok i → i.wellFormed = true → (i = .decode → s.lengthOk) →
      ∃ t, step s = .next t ∧ t.err = .ok)

/-- R78, R105: each command raises `OPERAND_RANGE` exactly when its fields are outside the ranges of the table,
whatever the operand and the state, changing nothing but `ERR` and `STICKY`; these are the commands that are
not well-formed. -/
def Obligations.OperandRangeRaisedExactlyOutOfRange : Prop :=
  ∀ (a w n : BitVec 8) (l : BitVec 16) (s : State),
    (RaisesRange (.new a) s ↔ 1 < a.toNat) ∧
    (RaisesRange (.wrf a) s ↔ 14 < a.toNat) ∧ (RaisesRange (.rdf a) s ↔ 14 < a.toNat) ∧
    (RaisesRange (.stu a w) s ↔ 16 < w.toNat ∨ 68 < a.toNat + w.toNat) ∧
    (RaisesRange (.ldu a w) s ↔ 16 < w.toNat ∨ 68 < a.toNat + w.toNat) ∧
    (RaisesRange (.ldb a w) s ↔ 16 < w.toNat ∨ 68 < a.toNat + w.toNat) ∧
    (RaisesRange (.stb a w n) s ↔
      16 < w.toNat ∨ 68 < a.toNat + w.toNat ∨ w.toNat < n.toNat) ∧
    (RaisesRange (.lds8 a) s ↔ 67 < a.toNat) ∧
    (RaisesRange (.tsenc a) s ↔ 60 < a.toNat) ∧ (RaisesRange (.tsdec a) s ↔ 60 < a.toNat) ∧
    ¬ RaisesRange (.setlen l) s ∧ ¬ RaisesRange .decode s ∧ ¬ RaisesRange .encode s ∧
    ¬ RaisesRange .u2n s ∧ ¬ RaisesRange .n2u s ∧ ¬ RaisesRange .qenc s ∧ ¬ RaisesRange .qdec s ∧
    ∀ i : Instr, RaisesRange i s ↔ i.wellFormed = false

/-- R53: an access that would touch an offset above 67 is refused as a whole; the test is on unbounded
integers. -/
def Obligations.AccessPastBufferRefusedWhole : Prop :=
  ∀ (a w n : BitVec 8) (s : State),
    (a.toNat + w.toNat > 68 →
      exec (.stu a w) s = .next (s.raised .operandRange) ∧
      exec (.ldu a w) s = .next (s.raised .operandRange) ∧
      exec (.stb a w n) s = .next (s.raised .operandRange) ∧
      exec (.ldb a w) s = .next (s.raised .operandRange)) ∧
    (a.toNat + 1 > 68 → exec (.lds8 a) s = .next (s.raised .operandRange)) ∧
    (a.toNat + 8 > 68 →
      exec (.tsenc a) s = .next (s.raised .operandRange) ∧
      exec (.tsdec a) s = .next (s.raised .operandRange))

/-- R182: `DECODE` fails for every length but 48 and 68, and succeeds for those two whatever `BUF` holds. -/
def Obligations.LengthGateAcceptsOnly48And68 : Prop :=
  ∀ s : State,
    (s.buflen = 48 ∨ s.buflen = 68 → ∃ t, exec .decode s = .next t ∧ t.err = .ok) ∧
    (s.buflen ≠ 48 ∧ s.buflen ≠ 68 → exec .decode s = .next (s.raised .invalidLength))

/-- R181: `INVALID_LENGTH` comes from `DECODE` only, `OPERAND_RANGE` from the ten commands with a ranged field
only, and no legal word raises `ILLEGAL_COMMAND`; what raises records its code and the sticky bit and nothing
else. -/
def Obligations.ErrorCodesComeOnlyFromTheirCommands : Prop :=
  (ErrCode.ok.code = 0 ∧ ErrCode.invalidLength.code = 1 ∧ ErrCode.illegalCommand.code = 2 ∧
    ErrCode.operandRange.code = 3) ∧
  ∀ (i : Instr) (s t : State), exec i s = .next t →
    t.err ≠ .illegalCommand ∧
    (t.err = .invalidLength → i = .decode ∧ t.buflen ≠ 48 ∧ t.buflen ≠ 68) ∧
    (t.err = .operandRange →
      i.op ∈ [Op.new, .wrf, .rdf, .stu, .ldu, .lds8, .stb, .ldb, .tsenc, .tsdec]) ∧
    (t.err ≠ .ok → t = s.raised t.err)

/-- R17, R222: what a command does depends on the block, the word and the operand alone: what the host will
present later, and what was at the port before, have no effect (the list of inputs is the model's own field,
notes/assumptions/2). -/
def Obligations.OtherInputsHaveNoEffect : Prop :=
  ∀ (s t : State) (cmd : Word) (opa x : Operand) (rest rest' : List HostInput),
    s.pending = .command cmd opa :: rest → step s = .next t →
    step { s with opa := x, pending := .command cmd opa :: rest' } = .next { t with pending := rest' }

/-- R74, R70: the bits of `OPA` that a command does not read are ignored: any operand with the same bits read
gives the same next state. -/
def Obligations.UnreadOperandBitsAreIgnored : Prop :=
  ∀ (i : Instr) (s t : State) (x : Operand),
    x.toNat % 2 ^ operandBits i = s.opa.toNat % 2 ^ operandBits i → exec i s = .next t →
    exec i { s with opa := x } = .next { t with opa := x }

/-- R27: a command sets `STICKY` when it raises and never clears it; reset leaves it 0; it is `STATUS[3]`. -/
def Obligations.StickySetByErrorsNeverClearedByCommands : Prop :=
  (∀ (s t : State) (cmd : Word) (opa : Operand) (rest : List HostInput),
    s.pending = .command cmd opa :: rest → step s = .next t →
    (t.sticky = true ↔ s.sticky = true ∨ t.err ≠ .ok)) ∧
  State.reset.sticky = false ∧ ∀ s : State, s.status.getLsbD 3 = s.sticky

/-! ## Encoding -/

/-- R71, R72, R83: decoding the word of a command gives the command back, at every value of every field. -/
def Obligations.DecodeOfEncodeIsSameCommand : Prop :=
  ∀ i : Instr, decode (encode i) = .ok i

/-- R77: every word is exactly one command or illegal, illegal being an unassigned opcode (239 of them, in the
ranges the rule lists) or a must-be-zero field that is not zero; an illegal word raises `ILLEGAL_COMMAND` and
changes nothing but `ERR` and `STICKY`; the all-zero and all-ones words are illegal. -/
def Obligations.EveryWordIsOneCommandOrIllegal : Prop :=
  (∀ (cmd : Word) (i : Instr), decode cmd = .ok i ↔ encode i = cmd) ∧
  (∀ cmd : Word,
    (decode cmd = .error .unassignedOpcode ↔ ∀ op : Op, op.code ≠ cmd.opField) ∧
    (decode cmd = .error .nonzeroField ↔
      ∃ op : Op, op.code = cmd.opField ∧ cmd &&& op.mask ≠ op.matchWord)) ∧
  decode 0x00000000 = .error .unassignedOpcode ∧ decode 0xFFFFFFFF = .error .unassignedOpcode ∧
  (∀ (s : State) (cmd : Word) (e : DecodeError), decode cmd = .error e →
    perform cmd s = .next (s.raised .illegalCommand)) ∧
  ((List.range 256).filter fun b => (Op.ofByte (BitVec.ofNat 8 b)).isNone) =
    [0x00] ++ List.range' 0x07 9 ++ List.range' 0x15 11 ++ List.range' 0x24 12 ++ List.range' 0x32 206 ∧
  ((List.range 256).filter fun b => (Op.ofByte (BitVec.ofNat 8 b)).isNone).length = 239

/-- R75, R76, `95_test_vectors.md`: for each of the 17 rows a word of the spec decodes to the command it stands
for, and two words with a nonzero unused field are illegal. -/
def Obligations.SpecWordsDecodeAsWritten : Prop :=
  decode 0x01010000 = .ok (.new 1) ∧ decode 0x02000000 = .ok .decode ∧
  decode 0x03000000 = .ok .encode ∧ decode 0x04080000 = .ok (.wrf 8) ∧
  decode 0x05050000 = .ok (.rdf 5) ∧ decode 0x06000044 = .ok (.setlen 68) ∧
  decode 0x10040400 = .ok (.stu 4 4) ∧ decode 0x11060200 = .ok (.ldu 6 2) ∧
  decode 0x12430000 = .ok (.lds8 67) ∧ decode 0x130C0403 = .ok (.stb 12 4 3) ∧
  decode 0x140C0400 = .ok (.ldb 12 4) ∧ decode 0x20280000 = .ok (.tsenc 40) ∧
  decode 0x21280000 = .ok (.tsdec 40) ∧ decode 0x22000000 = .ok .u2n ∧
  decode 0x23000000 = .ok .n2u ∧ decode 0x30000000 = .ok .qenc ∧ decode 0x31000000 = .ok .qdec ∧
  decode 0x11000101 = .error .nonzeroField ∧ decode 0x06010030 = .error .nonzeroField

/-- R82: the pseudo-commands are their expansions, and `WRTAG` leaves in `REFID` a Tag of the characters
given, left-justified and zero-padded. -/
def Obligations.PseudoCommandsAreTheirExpansions : Prop :=
  (∀ a : BitVec 8, encode (pseudoLdu8 a) = 0x11000100 ||| a.setWidth 32 <<< 16 ∧
    encode (pseudoStu8 a) = 0x10000100 ||| a.setWidth 32 <<< 16) ∧
  (∀ (tag : List Byte) (s : State), tag.length ≤ 4 →
    ∃ i opa t, pseudoWrtag tag = some (i, opa) ∧ encode i = 0x04080000 ∧
      opa.toNat = 2 ^ 32 + beDec tag <<< (8 * (4 - tag.length)) ∧
      exec i { s with opa := opa } = .next t ∧ t.err = .ok ∧ t.f.refIdIsTag = true ∧
      beEnc t.f.refIdValue.toNat 4 = tag ++ List.replicate (4 - tag.length) 0)

/-! ## Who writes what -/

/-- R24: `AUTH` is written only by `NEW`, from its field, and by a successful `DECODE`, from the length. -/
def Obligations.AuthWrittenOnlyByNewAndDecode : Prop :=
  ∀ (i : Instr) (s t : State), exec i s = .next t →
    (∀ a, i = .new a → t.err = .ok → t.auth = (a == 1)) ∧
    (i = .decode → t.err = .ok → t.auth = (s.buflen == 68)) ∧
    (((∀ a, i ≠ .new a) ∧ i ≠ .decode) ∨ t.err ≠ .ok → t.auth = s.auth)

/-- R25: `BUFLEN` is written by `SETLEN` with any value, by `NEW` and `ENCODE` with 48 or 68 by `AUTH`, and
by no other command; stores do not change it. -/
def Obligations.BuflenWrittenOnlyBySetlenNewEncode : Prop :=
  ∀ (i : Instr) (s t : State), exec i s = .next t →
    (∀ l, i = .setlen l → t.buflen = l) ∧
    (∀ a, i = .new a → t.err = .ok → t.buflen = if t.auth then 68 else 48) ∧
    (i = .encode → t.buflen = if s.auth then 68 else 48) ∧
    (((∀ l, i ≠ .setlen l) ∧ (∀ a, i ≠ .new a) ∧ i ≠ .encode) ∨ t.err ≠ .ok → t.buflen = s.buflen)

/-- R30: `RES` is left unchanged by every command that returns no value and by every command that raises. -/
def Obligations.ResultWrittenOnlyByValueCommands : Prop :=
  ∀ (i : Instr) (s t : State), exec i s = .next t →
    (i.op ∈ [Op.new, .decode, .encode, .wrf, .setlen, .stu, .stb, .tsenc] ∨ t.err ≠ .ok) →
    t.res = s.res

/-- R31: every byte of `BUF` is left unchanged by every command but `STU`, `STB`, `TSENC`, `ENCODE` and
`NEW`. -/
def Obligations.BufferWrittenOnlyByStoresEncodeNew : Prop :=
  ∀ (i : Instr) (s t : State), exec i s = .next t →
    (i.op ∉ [Op.stu, .stb, .tsenc, .encode, .new] ∨ t.err ≠ .ok) →
    ∀ x, t.buf.read x = s.buf.read x

/-- R20, R107: the field registers are left unchanged by every command but `NEW`, `WRF` and `DECODE`. -/
def Obligations.FieldsWrittenOnlyByNewWrfDecode : Prop :=
  ∀ (i : Instr) (s t : State), exec i s = .next t →
    (i.op ∉ [Op.new, .wrf, .decode] ∨ t.err ≠ .ok) → ∀ r, t.f.get r = s.f.get r

/-- R29: the packing of `STATUS`, which stands on an output port in every state, beside `BUFLEN` and `RES`
(R219). -/
def Obligations.StatusPacksItsFields : Prop :=
  ∀ s : State,
    s.status.getLsbD 0 = s.auth ∧ s.status.extractLsb' 1 2 = s.err.code ∧
    s.status.getLsbD 3 = s.sticky ∧
    s.status.getLsbD 4 = decide (s.f.get .refTs = 0) ∧ s.status.getLsbD 5 = decide (s.f.get .orgTs = 0) ∧
    s.status.getLsbD 6 = decide (s.f.get .rcvTs = 0) ∧ s.status.getLsbD 7 = decide (s.f.get .xmtTs = 0) ∧
    s.outputs.status = s.status ∧ s.outputs.buflen = s.buflen ∧ s.outputs.res = s.res

/-- R28: a `TSUNSET` bit is 1 exactly when its register is 0, and the four are `STATUS[7:4]`; after `DECODE` a
bit is 1 when the wire timestamp has zero seconds and a fraction below 4 294 968. -/
def Obligations.UnsetFlagsFollowTimestampRegisters : Prop :=
  (∀ s : State,
    s.tsUnset.getLsbD 0 = decide (s.f.refTs = 0) ∧ s.tsUnset.getLsbD 1 = decide (s.f.orgTs = 0) ∧
    s.tsUnset.getLsbD 2 = decide (s.f.rcvTs = 0) ∧ s.tsUnset.getLsbD 3 = decide (s.f.xmtTs = 0) ∧
    s.status.extractLsb' 4 4 = s.tsUnset) ∧
  (∀ s : State, s.lengthOk →
    ∃ t, exec .decode s = .next t ∧
      ∀ k, k < 4 →
        (t.tsUnset.getLsbD k = true ↔
          beDec (s.buf.readBytes (16 + 8 * k) 4) = 0 ∧
          beDec (s.buf.readBytes (20 + 8 * k) 4) < 4294968))

/-! ## Primitive codec -/

/-- R100: `STU` writes the low `8w` bits of `OPA` big-endian at `a`, completes, and leaves the rest alone. -/
def Obligations.StuStoresBigEndian : Prop :=
  ∀ (a w : BitVec 8) (s : State), s.buf.wf = true → w.toNat ≤ 16 → a.toNat + w.toNat ≤ 68 →
    ∃ t, exec (.stu a w) s = .next t ∧ t.err = .ok ∧ StoreFrame s t a.toNat w.toNat ∧
      ∀ i, i < w.toNat →
        (t.buf.read (a.toNat + i)).toNat = s.opa.toNat / 256 ^ (w.toNat - 1 - i) % 256

/-- R101: `LDU` leaves in `RES` the unsigned big-endian number of the `w` bytes at `a`, completes, and
leaves the rest alone. -/
def Obligations.LduLoadsUnsignedBigEndian : Prop :=
  ∀ (a w : BitVec 8) (s : State), w.toNat ≤ 16 → a.toNat + w.toNat ≤ 68 →
    ∃ t, exec (.ldu a w) s = .next t ∧ t.err = .ok ∧ ResultFrame s t ∧
      t.res.toNat =
        ∑ i ∈ Finset.range w.toNat, (s.buf.read (a.toNat + i)).toNat * 256 ^ (w.toNat - 1 - i)

/-- R102: `LDS8` leaves in `RES` the byte at `a`, sign-extended, completes, and leaves the rest alone. -/
def Obligations.Lds8LoadsSignedByte : Prop :=
  ∀ (a : BitVec 8) (s : State), a.toNat ≤ 67 →
    ∃ t, exec (.lds8 a) s = .next t ∧ t.err = .ok ∧ ResultFrame s t ∧
      t.res.toInt = if (s.buf.read a.toNat).toNat < 128 then ((s.buf.read a.toNat).toNat : Int)
        else ((s.buf.read a.toNat).toNat : Int) - 256

/-- R103: `STB` writes the `n` text bytes of `OPA`, first character first, then zeros up to `w` bytes,
completes, and leaves the rest alone. -/
def Obligations.StbStoresTextLeftJustified : Prop :=
  ∀ (a w n : BitVec 8) (s : State), s.buf.wf = true →
    w.toNat ≤ 16 → a.toNat + w.toNat ≤ 68 → n.toNat ≤ w.toNat →
    ∃ t, exec (.stb a w n) s = .next t ∧ t.err = .ok ∧ StoreFrame s t a.toNat w.toNat ∧
      (∀ i, i < n.toNat →
        (t.buf.read (a.toNat + i)).toNat = s.opa.toNat / 256 ^ (n.toNat - 1 - i) % 256) ∧
      (∀ i, n.toNat ≤ i → i < w.toNat → t.buf.read (a.toNat + i) = 0)

/-- R104: `LDB` leaves in `RES` the `w` bytes at `a` as a byte string, first byte most significant and all
higher bits zero, completes, and leaves the rest alone; it returns what `LDU` returns. -/
def Obligations.LdbLoadsByteString : Prop :=
  ∀ (a w : BitVec 8) (s : State), w.toNat ≤ 16 → a.toNat + w.toNat ≤ 68 →
    ∃ t, exec (.ldb a w) s = .next t ∧ t.err = .ok ∧ ResultFrame s t ∧
      (∀ i, i < w.toNat →
        t.res.extractLsb' (8 * (w.toNat - 1 - i)) 8 = s.buf.read (a.toNat + i)) ∧
      t.res.toNat < 256 ^ w.toNat ∧ exec (.ldu a w) s = .next t

/-- R101, R11: `LDU` after `STU` of the same bytes returns `OPA mod 2^(8w)`. -/
def Obligations.LduAfterStuReturnsTruncatedOperand : Prop :=
  ∀ (a w : BitVec 8) (s : State), s.buf.wf = true → w.toNat ≤ 16 → a.toNat + w.toNat ≤ 68 →
    ∃ t u, exec (.stu a w) s = .next t ∧ exec (.ldu a w) t = .next u ∧
      u.res.toNat = s.opa.toNat % 2 ^ (8 * w.toNat)

/-- R107: a command of the family reads nothing but its operand and the bytes it names: a load gives the same
result from any two states with the same bytes there, and a store writes the same bytes in any two states
with the same operand. -/
def Obligations.PrimitiveCommandsReadOnlyWhatTheyName : Prop :=
  ∀ (a w n : BitVec 8) (s s' : State), w.toNat ≤ 16 → a.toNat + w.toNat ≤ 68 →
    ((∀ x, a.toNat ≤ x → x < a.toNat + w.toNat → s.buf.read x = s'.buf.read x) →
      ∀ i ∈ [Instr.ldu a w, .ldb a w] ++ (if 1 ≤ w.toNat then [.lds8 a] else []),
        ∃ t t', exec i s = .next t ∧ exec i s' = .next t' ∧ t.res = t'.res) ∧
    (s.opa = s'.opa → s.buf.wf = true → s'.buf.wf = true →
      ∀ i ∈ [Instr.stu a w] ++ (if n.toNat ≤ w.toNat then [.stb a w n] else []),
        ∃ t t', exec i s = .next t ∧ exec i s' = .next t' ∧
          ∀ x, a.toNat ≤ x → x < a.toNat + w.toNat → t.buf.read x = t'.buf.read x)

/-! ## Timestamp codec -/

/-- R120: `ts_dec` of 8 bytes is the seconds in milliseconds plus the floored fraction, at most
4 294 967 295 999; the fraction part is `k` exactly in the interval the rule gives. -/
def Obligations.TimestampDecodeFloorsFraction : Prop :=
  ∀ bytes : List Byte, bytes.length = 8 →
    tsDec bytes = beDec (bytes.take 4) * 1000 + beDec (bytes.drop 4) * 1000 / 2 ^ 32 ∧
    tsDec bytes ≤ 4294967295999 ∧
    ∀ k : Nat, (tsDec bytes % 1000 = k ↔
      k < 1000 ∧ ⌈(k : ℚ) * 2 ^ 32 / 1000⌉ ≤ (beDec (bytes.drop 4) : ℤ) ∧
        (beDec (bytes.drop 4) : ℤ) < ⌈((k : ℚ) + 1) * 2 ^ 32 / 1000⌉)

/-- R122: `TSDEC` leaves in `RES` the millisecond count of the 8 bytes at `a`, completes, and leaves the rest
alone, the field registers included. -/
def Obligations.TsdecDecodesTimestamp : Prop :=
  ∀ (a : BitVec 8) (s : State), a.toNat ≤ 60 →
    ∃ t, exec (.tsdec a) s = .next t ∧ t.err = .ok ∧ ResultFrame s t ∧
      (t.res.toNat : ℤ) = beDec (s.buf.readBytes a.toNat 4) * 1000 +
        ⌊(beDec (s.buf.readBytes (a.toNat + 4) 4) : ℚ) * 1000 / 2 ^ 32⌋

/-- R123, R121: `TSENC` writes the 8 bytes of the signed millisecond count `OPA[63:0]` at `a`, completes, and
leaves the rest alone. -/
def Obligations.TsencEncodesTimestamp : Prop :=
  ∀ (a : BitVec 8) (s : State), s.buf.wf = true → a.toNat ≤ 60 →
    ∃ t, exec (.tsenc a) s = .next t ∧ t.err = .ok ∧ StoreFrame s t a.toNat 8 ∧
      HoldsTimestamp t.buf a.toNat (s.opa.setWidth 64).toInt

/-- R124: `U2N` leaves in `RES` the sign-extended 64-bit pattern of `(u + 2208988800) * 1000`, which is exact
in the range the rule gives; it completes and leaves the rest alone. -/
def Obligations.U2nShiftsToNtpMilliseconds : Prop :=
  ∀ s : State,
    ∃ t, exec .u2n s = .next t ∧ t.err = .ok ∧ ResultFrame s t ∧
      -2 ^ 63 ≤ t.res.toInt ∧ t.res.toInt < 2 ^ 63 ∧
      t.res.toInt % 2 ^ 64 = (((s.opa.setWidth 64).toInt + 2208988800) * 1000) % 2 ^ 64 ∧
      (-9223374245843575 ≤ (s.opa.setWidth 64).toInt ∧ (s.opa.setWidth 64).toInt ≤ 9223369827865975 →
        t.res.toInt = ((s.opa.setWidth 64).toInt + 2208988800) * 1000)

/-- R125: `N2U` leaves in `RES` the floored Unix seconds and the remaining milliseconds, which together are
the exact value; it completes and leaves the rest alone. -/
def Obligations.N2uSplitsExactUnixSeconds : Prop :=
  ∀ s : State,
    ∃ t, exec .n2u s = .next t ∧ t.err = .ok ∧ ResultFrame s t ∧
      (t.res.extractLsb' 0 64).toInt = ⌊((s.opa.setWidth 64).toInt : ℚ) / 1000⌋ - 2208988800 ∧
      (t.res.extractLsb' 64 64).toNat < 1000 ∧
      ((t.res.extractLsb' 0 64).toInt : ℚ) + (t.res.extractLsb' 64 64).toNat / 1000 =
        ((s.opa.setWidth 64).toInt : ℚ) / 1000 - 2208988800

/-- R126: a millisecond count of the wire's range comes back from `TSENC` then `TSDEC` unchanged when its
remainder is a multiple of 125, and exactly 1 ms smaller otherwise. -/
def Obligations.TimestampWireTripLosesAtMostOneMillisecond : Prop :=
  ∀ (a : BitVec 8) (s : State) (ms : Nat), s.buf.wf = true → a.toNat ≤ 60 → ms < 4294967296000 →
    s.opa = BitVec.ofNat 128 ms →
    ∃ t u, exec (.tsenc a) s = .next t ∧ exec (.tsdec a) t = .next u ∧
      u.res.toNat = if ms % 1000 % 125 = 0 then ms else ms - 1

/-- R127: `TSDEC` then `TSENC` of its result at the same offset keeps the seconds and lowers the fraction to
the floor representation of its whole milliseconds, by at most 4 294 968; eight zero bytes stay. -/
def Obligations.TimestampReencodingLowersFraction : Prop :=
  ∀ (a : BitVec 8) (s : State), s.buf.wf = true → a.toNat ≤ 60 →
    ∃ t u, exec (.tsdec a) s = .next t ∧ exec (.tsenc a) { t with opa := t.res } = .next u ∧
      beDec (u.buf.readBytes a.toNat 4) = beDec (s.buf.readBytes a.toNat 4) ∧
      beDec (u.buf.readBytes (a.toNat + 4) 4) =
        beDec (s.buf.readBytes (a.toNat + 4) 4) * 1000 / 2 ^ 32 * 2 ^ 32 / 1000 ∧
      beDec (s.buf.readBytes (a.toNat + 4) 4) ≤ beDec (u.buf.readBytes (a.toNat + 4) 4) + 4294968 ∧
      beDec (u.buf.readBytes (a.toNat + 4) 4) ≤ beDec (s.buf.readBytes (a.toNat + 4) 4) ∧
      (beDec (s.buf.readBytes (a.toNat + 4) 4) = 0 → beDec (u.buf.readBytes (a.toNat + 4) 4) = 0)

/-! ## Fixed-point codec -/

/-- R142, R140: `QDEC` leaves in `RES` the container of `OPA[31:0] / 65536` seconds, never negative; it
completes and leaves the rest alone. -/
def Obligations.QdecDividesRawBy65536 : Prop :=
  ∀ s : State,
    ∃ t, exec .qdec s = .next t ∧ t.err = .ok ∧ ResultFrame s t ∧
      t.res.toNat = (s.opa.toNat % 2 ^ 32) * 2 ^ 16 ∧
      (t.res.toInt : ℚ) / 2 ^ 32 = ((s.opa.toNat % 2 ^ 32 : Nat) : ℚ) / 65536 ∧ 0 ≤ t.res.toInt

/-- R143, R141: `QENC` leaves in `RES` the 32-bit word of `round(x * 65536)`, an exact half away from zero,
for `x` the signed Q32.32 seconds of `OPA[63:0]`; it completes and leaves the rest alone. -/
def Obligations.QencRoundsHalfAwayAndMasks : Prop :=
  ∀ s : State,
    ∃ t, exec .qenc s = .next t ∧ t.err = .ok ∧ ResultFrame s t ∧
      (t.res.toNat : ℤ) = q16Word (seconds (s.opa.setWidth 64))

/-- R145: `QDEC` then `QENC` of its result is the identity on the wire word; for `x` from 0 to below 65536
seconds, `QENC` then `QDEC` gives the nearest multiple of 2^-16, which is `x` exactly when `x` is one, or 0 when
that multiple is 65536. -/
def Obligations.FixedPointRoundTrips : Prop :=
  (∀ s : State,
    ∃ t u, exec .qdec s = .next t ∧ exec .qenc { t with opa := t.res } = .next u ∧
      u.res.toNat = s.opa.toNat % 2 ^ 32) ∧
  (∀ (s : State), 0 ≤ seconds (s.opa.setWidth 64) → seconds (s.opa.setWidth 64) < 65536 →
    ∃ t u, exec .qenc s = .next t ∧ exec .qdec { t with opa := t.res } = .next u ∧
      (roundHalfAway (seconds (s.opa.setWidth 64) * 65536) = 65536 * 65536 → u.res = 0) ∧
      (roundHalfAway (seconds (s.opa.setWidth 64) * 65536) ≠ 65536 * 65536 →
        seconds (u.res.setWidth 64) = roundHalfAway (seconds (s.opa.setWidth 64) * 65536) / 65536 ∧
        |seconds (u.res.setWidth 64) - seconds (s.opa.setWidth 64)| ≤ 1 / 2 ^ 17) ∧
      (seconds (u.res.setWidth 64) = seconds (s.opa.setWidth 64) ↔
        ∃ k : ℤ, seconds (s.opa.setWidth 64) = k / 65536))

/-- R144: a negative multiple of 2^-16 seconds down to -32768 comes back from `QENC` then `QDEC` as itself
plus 65536: decode is unsigned. -/
def Obligations.NegativeSecondsComeBackPlus65536 : Prop :=
  ∀ (s : State) (k : ℤ), seconds (s.opa.setWidth 64) = k / 65536 → -32768 * 65536 ≤ k → k < 0 →
    ∃ t u, exec .qenc s = .next t ∧ exec .qdec { t with opa := t.res } = .next u ∧
      seconds (u.res.setWidth 64) = seconds (s.opa.setWidth 64) + 65536

/-! ## Message codec -/

/-- R151: `NEW` clears all fields and all bytes, sets the variant and its length, completes, and leaves
`RES` and `STICKY`. -/
def Obligations.NewConstructsFreshInstance : Prop :=
  ∀ (a : BitVec 8) (s : State), a.toNat ≤ 1 →
    ∃ t, exec (.new a) s = .next t ∧ t.err = .ok ∧
      (∀ r, t.f.get r = 0) ∧ (∀ x, t.buf.read x = 0) ∧ (t.auth = true ↔ a = 1) ∧
      t.buflen.toNat = 48 + 20 * a.toNat ∧ t.tsUnset = 0b1111 ∧
      t.res = s.res ∧ t.sticky = s.sticky ∧ t.opa = s.opa ∧ t.pending = s.pending

/-- R152: `SETLEN` stores any length, completes, and leaves the rest alone. -/
def Obligations.SetlenStoresAnyLength : Prop :=
  ∀ (l : BitVec 16) (s : State),
    ∃ t, exec (.setlen l) s = .next t ∧ t.err = .ok ∧ t.buflen = l ∧
      t.f = s.f ∧ t.auth = s.auth ∧ t.sticky = s.sticky ∧ t.res = s.res ∧ t.opa = s.opa ∧
      t.pending = s.pending ∧ ∀ x, t.buf.read x = s.buf.read x

/-- R153, R20: `WRF r` stores the low bits of `OPA` in the register of that index in the table, completes, and
leaves every other register and the rest alone. -/
def Obligations.WrfWritesOneRegister : Prop :=
  FieldTable ∧
  ∀ (a : BitVec 8) (r : FieldReg) (s : State), a.toNat = r.index →
    ∃ t, exec (.wrf a) s = .next t ∧ t.err = .ok ∧
      (t.f.get r).toNat = s.opa.toNat % 2 ^ r.width ∧
      (∀ r', r' ≠ r → t.f.get r' = s.f.get r') ∧
      t.auth = s.auth ∧ t.buflen = s.buflen ∧ t.sticky = s.sticky ∧ t.res = s.res ∧
      t.opa = s.opa ∧ t.pending = s.pending ∧ ∀ x, t.buf.read x = s.buf.read x

/-- R154, R20: `RDF r` shows the register of that index in the table, as a signed number for registers 4 to 7 and 9 to 12 and
as an unsigned one for the others, completes, and leaves the rest alone. -/
def Obligations.RdfShowsRegisterByKind : Prop :=
  FieldTable ∧
  ∀ (a : BitVec 8) (r : FieldReg) (s : State), a.toNat = r.index →
    ∃ t, exec (.rdf a) s = .next t ∧ t.err = .ok ∧ ResultFrame s t ∧
      (r.index ∈ [4, 5, 6, 7, 9, 10, 11, 12] → t.res.toInt = (s.f.get r).toInt) ∧
      (r.index ∉ [4, 5, 6, 7, 9, 10, 11, 12] → t.res.toNat = (s.f.get r).toNat)

/-- R155: `DECODE` of a buffer of length 48 or 68 replaces all 15 field registers and `AUTH` by what the
layout gives, completes, and leaves the rest alone. -/
def Obligations.DecodeReplacesAllFieldsFromLayout : Prop :=
  ∀ s : State, s.lengthOk →
    ∃ t, exec .decode s = .next t ∧ t.err = .ok ∧
      (t.auth = true ↔ s.buflen = 68) ∧
      t.f.li.toNat = (s.buf.read 0).toNat / 64 ∧
      t.f.vn.toNat = (s.buf.read 0).toNat / 8 % 8 ∧
      t.f.mode.toNat = (s.buf.read 0).toNat % 8 ∧
      t.f.stratum = s.buf.read 1 ∧ t.f.poll = s.buf.read 2 ∧ t.f.precision = s.buf.read 3 ∧
      t.f.rootDelay.toNat = beDec (s.buf.readBytes 4 4) * 2 ^ 16 ∧
      t.f.rootDisp.toNat = beDec (s.buf.readBytes 8 4) * 2 ^ 16 ∧
      t.f.refIdIsTag = false ∧ t.f.refIdValue.toNat = beDec (s.buf.readBytes 12 4) ∧
      t.f.refTs.toNat = tsDec (s.buf.readBytes 16 8) ∧ t.f.orgTs.toNat = tsDec (s.buf.readBytes 24 8) ∧
      t.f.rcvTs.toNat = tsDec (s.buf.readBytes 32 8) ∧ t.f.xmtTs.toNat = tsDec (s.buf.readBytes 40 8) ∧
      (s.buflen = 68 → t.f.keyId.toNat = beDec (s.buf.readBytes 48 4) ∧
        t.f.digest.toNat = beDec (s.buf.readBytes 52 16)) ∧
      (s.buflen = 48 → t.f.keyId = 0 ∧ t.f.digest = 0) ∧
      t.buflen = s.buflen ∧ t.res = s.res ∧ t.sticky = s.sticky ∧ t.opa = s.opa ∧
      t.pending = s.pending ∧ ∀ x, t.buf.read x = s.buf.read x

/-- R156: `ENCODE` writes the whole buffer from the fields and `AUTH`, each field masked to its wire width,
and sets `BUFLEN`; it always completes and leaves the fields, `AUTH` and `RES` alone. -/
def Obligations.EncodeWritesLayoutFromFields : Prop :=
  ∀ s : State,
    ∃ t, exec .encode s = .next t ∧ t.err = .ok ∧
      t.buflen = (if s.auth then 68 else 48) ∧
      (t.buf.read 0).toNat =
        s.f.li.toNat % 4 * 64 + s.f.vn.toNat % 8 * 8 + s.f.mode.toNat % 8 ∧
      t.buf.read 1 = s.f.stratum ∧ t.buf.read 2 = s.f.poll ∧ t.buf.read 3 = s.f.precision ∧
      (beDec (t.buf.readBytes 4 4) : ℤ) = q16Word (seconds s.f.rootDelay) ∧
      (beDec (t.buf.readBytes 8 4) : ℤ) = q16Word (seconds s.f.rootDisp) ∧
      beDec (t.buf.readBytes 12 4) = s.f.refId.toNat % 2 ^ 32 ∧
      HoldsTimestamp t.buf 16 s.f.refTs.toInt ∧ HoldsTimestamp t.buf 24 s.f.orgTs.toInt ∧
      HoldsTimestamp t.buf 32 s.f.rcvTs.toInt ∧ HoldsTimestamp t.buf 40 s.f.xmtTs.toInt ∧
      (s.auth = true → beDec (t.buf.readBytes 48 4) = s.f.keyId.toNat ∧
        beDec (t.buf.readBytes 52 16) = s.f.digest.toNat) ∧
      (s.auth = false → ∀ x, 48 ≤ x → t.buf.read x = 0) ∧
      (∀ x, 68 ≤ x → t.buf.read x = 0) ∧
      t.f = s.f ∧ t.auth = s.auth ∧ t.res = s.res ∧ t.sticky = s.sticky ∧ t.opa = s.opa ∧
      t.pending = s.pending

/-- R159: a Tag and the Address with the same four bytes give the same buffer, with those bytes at offset
12: the variant bit never reaches the wire. -/
def Obligations.ReferenceVariantNeverReachesWire : Prop :=
  ∀ (s : State) (v w : BitVec 33), v.toNat % 2 ^ 32 = w.toNat % 2 ^ 32 →
    ∃ t u, exec .encode { s with f := s.f.set .refId v } = .next t ∧
      exec .encode { s with f := s.f.set .refId w } = .next u ∧
      t.buf = u.buf ∧ t.buf.readBytes 12 4 = beEnc (v.toNat % 2 ^ 32) 4

/-- R158: what `ENCODE` then `DECODE` leaves in every register. -/
def Obligations.EncodeThenDecodeRoundTrip : Prop :=
  ∀ s : State,
    ∃ t u, exec .encode s = .next t ∧ exec .decode t = .next u ∧ u.err = .ok ∧
      u.f.li.toNat = s.f.li.toNat % 4 ∧ u.f.vn.toNat = s.f.vn.toNat % 8 ∧
      u.f.mode.toNat = s.f.mode.toNat % 8 ∧
      u.f.stratum = s.f.stratum ∧ u.f.poll = s.f.poll ∧ u.f.precision = s.f.precision ∧
      seconds u.f.rootDelay = q16Word (seconds s.f.rootDelay) / 65536 ∧
      seconds u.f.rootDisp = q16Word (seconds s.f.rootDisp) / 65536 ∧
      u.f.refIdIsTag = false ∧ u.f.refIdValue = s.f.refIdValue ∧
      (∀ r ∈ [FieldReg.refTs, .orgTs, .rcvTs, .xmtTs],
        0 ≤ (s.f.get r).toInt → (s.f.get r).toInt < 4294967296000 →
        (u.f.get r).toInt = afterTrip (s.f.get r).toInt) ∧
      (∀ r ∈ [FieldReg.refTs, .orgTs, .rcvTs, .xmtTs],
        (u.f.get r).toInt = afterTrip ((s.f.get r).toInt % 4294967296000)) ∧
      (s.auth = true → u.f.keyId = s.f.keyId ∧ u.f.digest = s.f.digest) ∧
      (s.auth = false → u.f.keyId = 0 ∧ u.f.digest = 0) ∧
      u.auth = s.auth ∧ u.buflen = (if s.auth then 68 else 48)

/-- R158, R127: `DECODE` then `ENCODE` reproduces the message byte for byte except the four fraction words,
each lowered as R127 says. -/
def Obligations.DecodeThenEncodeRoundTrip : Prop :=
  ∀ s : State, s.lengthOk →
    ∃ t u, exec .decode s = .next t ∧ exec .encode t = .next u ∧ u.err = .ok ∧
      u.buflen = s.buflen ∧
      (∀ x, x < s.buflen.toNat → ¬ (16 ≤ x ∧ x < 48 ∧ 4 ≤ x % 8) → u.buf.read x = s.buf.read x) ∧
      (∀ o ∈ [20, 28, 36, 44],
        beDec (u.buf.readBytes o 4) = beDec (s.buf.readBytes o 4) * 1000 / 2 ^ 32 * 2 ^ 32 / 1000 ∧
        beDec (s.buf.readBytes o 4) ≤ beDec (u.buf.readBytes o 4) + 4294968 ∧
        beDec (u.buf.readBytes o 4) ≤ beDec (s.buf.readBytes o 4))

/-- R155, R156: with `BUFLEN` 48, `DECODE` does not depend on offsets 48..67, and with `AUTH` 0, `ENCODE` does
not depend on `KEYID` and `DIGEST`. -/
def Obligations.PlainVariantIgnoresAuthentication : Prop :=
  (∀ (s : State) (m : Memory), s.buflen = 48 → (∀ x, x < 48 → m.read x = s.buf.read x) →
    ∃ t u, exec .decode s = .next t ∧ exec .decode { s with buf := m } = .next u ∧ u.f = t.f) ∧
  (∀ (s : State) (k : BitVec 32) (d : BitVec 128), s.auth = false →
    ∃ t u, exec .encode s = .next t ∧
      exec .encode { s with f := (s.f.set .keyId k).set .digest d } = .next u ∧ u.buf = t.buf)

/-- R108: `DECODE` agrees with the primitive commands at the offsets of the layout. -/
def Obligations.DecodeAgreesWithPrimitiveCommands : Prop :=
  ∀ s : State, s.lengthOk →
    ∃ t, exec .decode s = .next t ∧
      (∃ u, exec (.ldu 1 1) s = .next u ∧ u.res = t.f.show128 .stratum) ∧
      (∃ u, exec (.lds8 2) s = .next u ∧ u.res = t.f.show128 .poll) ∧
      (∃ u, exec (.lds8 3) s = .next u ∧ u.res = t.f.show128 .precision) ∧
      (∃ u v, exec (.ldu 4 4) s = .next u ∧ exec .qdec { u with opa := u.res } = .next v ∧
        v.res = t.f.show128 .rootDelay) ∧
      (∃ u, exec (.ldu 12 4) s = .next u ∧ u.res = t.f.show128 .refId) ∧
      (∃ u, exec (.tsdec 16) s = .next u ∧ u.res = t.f.show128 .refTs) ∧
      (s.buflen = 68 →
        (∃ u, exec (.ldu 48 4) s = .next u ∧ u.res = t.f.show128 .keyId) ∧
        (∃ u, exec (.ldb 52 16) s = .next u ∧ u.res = t.f.show128 .digest))

/-- R36: `NEW a` gives the fields and the buffer of reset, `AUTH = a` and `BUFLEN = 48 + 20*a`, and leaves
`RES` and `STICKY` as they were. -/
def Obligations.NewComparedWithReset : Prop :=
  ∀ (a : BitVec 8) (s : State), a.toNat ≤ 1 →
    ∃ t, exec (.new a) s = .next t ∧ t.f = State.reset.f ∧ t.buf = State.reset.buf ∧
      t.auth = decide (a = 1) ∧ t.buflen.toNat = 48 + 20 * a.toNat ∧ t.err = .ok ∧
      t.res = s.res ∧ t.sticky = s.sticky

/-- R163: from any state, `NEW 0`, `WRF VN` with 3, `WRF MODE` with 3 and `ENCODE` give a 48-byte message that
is zero but for byte 0, and `DECODE` of it gives those two fields back with every timestamp unset. -/
def Obligations.ClientQueryScenario : Prop :=
  ∀ s : State,
    s.pending = buildMessage false [(.vn, 3), (.mode, 3)] ++ [Machine.present .decode 0] →
    ∃ t u, core.run 4 s = .next t ∧ t.buflen = 48 ∧ t.buf.read 0 = 0x1B ∧
      (∀ x, x ≠ 0 → t.buf.read x = 0) ∧ core.run 5 s = .next u ∧ u.err = .ok ∧
      u.f.get .vn = 3 ∧ u.f.get .mode = 3 ∧ (∀ r, r ≠ .vn → r ≠ .mode → u.f.get r = 0) ∧
      u.tsUnset = 0b1111

/-- R160: supplying a received datagram of 48 or 68 bytes puts its bytes in the buffer and decodes it; any
other length yields `INVALID_LENGTH` and leaves fields, `AUTH` and buffer alone. -/
def Obligations.SuppliedDatagramIsDecoded : Prop :=
  ∀ (s : State) (d : List Byte), s.buf.wf = true → s.pending = supplyDatagram d →
    ∃ t, core.run (supplyDatagram d).length s = .next t ∧ t.pending = [] ∧
      (d.length = 48 ∨ d.length = 68 →
        t.err = .ok ∧ t.message = d ∧ (t.auth = true ↔ d.length = 68) ∧
        t.f = decodeFields t.buf t.auth) ∧
      (d.length ≠ 48 ∧ d.length ≠ 68 →
        t.err = .invalidLength ∧ t.sticky = true ∧ t.f = s.f ∧ t.auth = s.auth ∧ t.buf = s.buf)
end

