-- ==== Sys2Proof/Laws/Decode.lean ====
section
/-! SUPPORT. The laws of the encoding tables: the fields of a built word, and the opcode map read both
ways (R71, R72, R75). -/

namespace Sys2Proof

@[simp] theorem Op.ofByte_code (op : Op) : Op.ofByte op.code = some op := by
  cases op <;> decide

/-- A byte that names a row is that row's opcode. -/
theorem Op.code_of_ofByte {b : BitVec 8} {op : Op} (h : Op.ofByte b = some op) : op.code = b := by
  have := List.find?_some h
  simpa using this

/-- The opcode of a row is the top byte of its match word (R75). -/
theorem Op.matchWord_opField (op : Op) : op.matchWord.opField = op.code := by
  cases op <;> decide

/-- The mask of every row covers the opcode (R76). -/
theorem Op.mask_opField (op : Op) : op.mask.opField = 0xFF := by
  cases op <;> decide

theorem formatR_opField (op : Op) (a w n : BitVec 8) : (formatR op a w n).opField = op.code := by
  apply BitVec.eq_of_getLsbD_eq
  intro i hi
  interval_cases i <;> simp [formatR, Word.opField, BitVec.getLsbD_of_ge]

theorem formatR_aField (op : Op) (a w n : BitVec 8) : (formatR op a w n).aField = a := by
  apply BitVec.eq_of_getLsbD_eq
  intro i hi
  interval_cases i <;> simp [formatR, Word.aField, BitVec.getLsbD_of_ge]

theorem formatR_wField (op : Op) (a w n : BitVec 8) : (formatR op a w n).wField = w := by
  apply BitVec.eq_of_getLsbD_eq
  intro i hi
  interval_cases i <;> simp [formatR, Word.wField, BitVec.getLsbD_of_ge]

theorem formatR_nField (op : Op) (a w n : BitVec 8) : (formatR op a w n).nField = n := by
  apply BitVec.eq_of_getLsbD_eq
  intro i hi
  interval_cases i <;> simp [formatR, Word.nField]

theorem formatL_opField (op : Op) (l : BitVec 16) : (formatL op l).opField = op.code := by
  apply BitVec.eq_of_getLsbD_eq
  intro i hi
  interval_cases i <;> simp [formatL, Word.opField, BitVec.getLsbD_of_ge]

theorem formatL_imm16Field (op : Op) (l : BitVec 16) : (formatL op l).imm16Field = l := by
  apply BitVec.eq_of_getLsbD_eq
  intro i hi
  interval_cases i <;> simp [formatL, Word.imm16Field]

theorem formatL_aField (op : Op) (l : BitVec 16) : (formatL op l).aField = 0 := by
  apply BitVec.eq_of_getLsbD_eq
  intro i hi
  interval_cases i <;> simp [formatL, Word.aField, BitVec.getLsbD_of_ge]

/-- Two words with the same four fields are the same word (R71). -/
theorem Word.eq_of_fields {x y : Word} (h1 : x.opField = y.opField) (h2 : x.aField = y.aField)
    (h3 : x.wField = y.wField) (h4 : x.nField = y.nField) : x = y := by
  apply BitVec.eq_of_getLsbD_eq
  intro i hi
  have e1 := congrArg (fun v : BitVec 8 => v.getLsbD (i - 24)) h1
  have e2 := congrArg (fun v : BitVec 8 => v.getLsbD (i - 16)) h2
  have e3 := congrArg (fun v : BitVec 8 => v.getLsbD (i - 8)) h3
  have e4 := congrArg (fun v : BitVec 8 => v.getLsbD i) h4
  simp only [Word.opField, Word.aField, Word.wField, Word.nField, BitVec.getLsbD_extractLsb'] at e1 e2 e3 e4
  interval_cases i <;> simp_all

theorem Word.opField_and (x y : Word) : (x &&& y : Word).opField = x.opField &&& y.opField := by
  simp [Word.opField, BitVec.extractLsb'_and]

theorem Word.aField_and (x y : Word) : (x &&& y : Word).aField = x.aField &&& y.aField := by
  simp [Word.aField, BitVec.extractLsb'_and]

theorem Word.wField_and (x y : Word) : (x &&& y : Word).wField = x.wField &&& y.wField := by
  simp [Word.wField, BitVec.extractLsb'_and]

theorem Word.nField_and (x y : Word) : (x &&& y : Word).nField = x.nField &&& y.nField := by
  simp [Word.nField, BitVec.extractLsb'_and]

/-- The opcode of a command's word is its row's. -/
theorem encode_opField (i : Instr) : (encode i).opField = i.op.code := by
  cases i <;> simp only [encode, formatR_opField, formatL_opField, Instr.op]

/-- A format R word matches its row when the fields the row fixes are zero (R76). -/
theorem formatR_matches (op : Op) (a w n : BitVec 8) (ha : a &&& op.mask.aField = op.matchWord.aField)
    (hw : w &&& op.mask.wField = op.matchWord.wField) (hn : n &&& op.mask.nField = op.matchWord.nField) :
    formatR op a w n &&& op.mask = op.matchWord := by
  apply Word.eq_of_fields
  · rw [Word.opField_and, formatR_opField, Op.mask_opField, Op.matchWord_opField]
    cases op <;> decide
  · rw [Word.aField_and, formatR_aField, ha]
  · rw [Word.wField_and, formatR_wField, hw]
  · rw [Word.nField_and, formatR_nField, hn]

/-- A format L word matches the row of `SETLEN` (R72, R76). -/
theorem formatL_matches (l : BitVec 16) : formatL .setlen l &&& Op.setlen.mask = Op.setlen.matchWord := by
  have z : ∀ b : BitVec 8, b &&& 0 = 0 := fun b => by simp
  apply Word.eq_of_fields
  · rw [Word.opField_and, formatL_opField]; decide
  · rw [Word.aField_and, formatL_aField]; decide
  · rw [Word.wField_and]; exact z _
  · rw [Word.nField_and]; exact z _

end Sys2Proof
end

