-- ==== Sys2Proof/Laws/State.lean ====
section
/-! SUPPORT. One lemma per field of State per update, all true by rfl, so that no later proof unfolds a
record update. -/

namespace Sys2Proof.Machine

@[simp] theorem State.setF_f (s : State) (f : Fields) : (s.setF f).f = f := rfl
@[simp] theorem State.setF_buf (s : State) (f : Fields) : (s.setF f).buf = s.buf := rfl
@[simp] theorem State.setF_auth (s : State) (f : Fields) : (s.setF f).auth = s.auth := rfl
@[simp] theorem State.setF_buflen (s : State) (f : Fields) : (s.setF f).buflen = s.buflen := rfl
@[simp] theorem State.setF_err (s : State) (f : Fields) : (s.setF f).err = s.err := rfl
@[simp] theorem State.setF_sticky (s : State) (f : Fields) : (s.setF f).sticky = s.sticky := rfl
@[simp] theorem State.setF_res (s : State) (f : Fields) : (s.setF f).res = s.res := rfl
@[simp] theorem State.setF_opa (s : State) (f : Fields) : (s.setF f).opa = s.opa := rfl
@[simp] theorem State.setF_pending (s : State) (f : Fields) : (s.setF f).pending = s.pending := rfl

@[simp] theorem State.setBuf_f (s : State) (m : Memory) : (s.setBuf m).f = s.f := rfl
@[simp] theorem State.setBuf_buf (s : State) (m : Memory) : (s.setBuf m).buf = m := rfl
@[simp] theorem State.setBuf_auth (s : State) (m : Memory) : (s.setBuf m).auth = s.auth := rfl
@[simp] theorem State.setBuf_buflen (s : State) (m : Memory) : (s.setBuf m).buflen = s.buflen := rfl
@[simp] theorem State.setBuf_err (s : State) (m : Memory) : (s.setBuf m).err = s.err := rfl
@[simp] theorem State.setBuf_sticky (s : State) (m : Memory) : (s.setBuf m).sticky = s.sticky := rfl
@[simp] theorem State.setBuf_res (s : State) (m : Memory) : (s.setBuf m).res = s.res := rfl
@[simp] theorem State.setBuf_opa (s : State) (m : Memory) : (s.setBuf m).opa = s.opa := rfl
@[simp] theorem State.setBuf_pending (s : State) (m : Memory) : (s.setBuf m).pending = s.pending := rfl

@[simp] theorem State.setAuth_f (s : State) (b : Bool) : (s.setAuth b).f = s.f := rfl
@[simp] theorem State.setAuth_buf (s : State) (b : Bool) : (s.setAuth b).buf = s.buf := rfl
@[simp] theorem State.setAuth_auth (s : State) (b : Bool) : (s.setAuth b).auth = b := rfl
@[simp] theorem State.setAuth_buflen (s : State) (b : Bool) : (s.setAuth b).buflen = s.buflen := rfl
@[simp] theorem State.setAuth_err (s : State) (b : Bool) : (s.setAuth b).err = s.err := rfl
@[simp] theorem State.setAuth_sticky (s : State) (b : Bool) : (s.setAuth b).sticky = s.sticky := rfl
@[simp] theorem State.setAuth_res (s : State) (b : Bool) : (s.setAuth b).res = s.res := rfl
@[simp] theorem State.setAuth_opa (s : State) (b : Bool) : (s.setAuth b).opa = s.opa := rfl
@[simp] theorem State.setAuth_pending (s : State) (b : Bool) : (s.setAuth b).pending = s.pending := rfl

@[simp] theorem State.setBuflen_f (s : State) (l : BitVec 16) : (s.setBuflen l).f = s.f := rfl
@[simp] theorem State.setBuflen_buf (s : State) (l : BitVec 16) : (s.setBuflen l).buf = s.buf := rfl
@[simp] theorem State.setBuflen_auth (s : State) (l : BitVec 16) : (s.setBuflen l).auth = s.auth := rfl
@[simp] theorem State.setBuflen_buflen (s : State) (l : BitVec 16) : (s.setBuflen l).buflen = l := rfl
@[simp] theorem State.setBuflen_err (s : State) (l : BitVec 16) : (s.setBuflen l).err = s.err := rfl
@[simp] theorem State.setBuflen_sticky (s : State) (l : BitVec 16) : (s.setBuflen l).sticky = s.sticky := rfl
@[simp] theorem State.setBuflen_res (s : State) (l : BitVec 16) : (s.setBuflen l).res = s.res := rfl
@[simp] theorem State.setBuflen_opa (s : State) (l : BitVec 16) : (s.setBuflen l).opa = s.opa := rfl
@[simp] theorem State.setBuflen_pending (s : State) (l : BitVec 16) : (s.setBuflen l).pending = s.pending := rfl

@[simp] theorem State.setErr_f (s : State) (e : ErrCode) : (s.setErr e).f = s.f := rfl
@[simp] theorem State.setErr_buf (s : State) (e : ErrCode) : (s.setErr e).buf = s.buf := rfl
@[simp] theorem State.setErr_auth (s : State) (e : ErrCode) : (s.setErr e).auth = s.auth := rfl
@[simp] theorem State.setErr_buflen (s : State) (e : ErrCode) : (s.setErr e).buflen = s.buflen := rfl
@[simp] theorem State.setErr_err (s : State) (e : ErrCode) : (s.setErr e).err = e := rfl
@[simp] theorem State.setErr_sticky (s : State) (e : ErrCode) : (s.setErr e).sticky = s.sticky := rfl
@[simp] theorem State.setErr_res (s : State) (e : ErrCode) : (s.setErr e).res = s.res := rfl
@[simp] theorem State.setErr_opa (s : State) (e : ErrCode) : (s.setErr e).opa = s.opa := rfl
@[simp] theorem State.setErr_pending (s : State) (e : ErrCode) : (s.setErr e).pending = s.pending := rfl

@[simp] theorem State.setSticky_f (s : State) (b : Bool) : (s.setSticky b).f = s.f := rfl
@[simp] theorem State.setSticky_buf (s : State) (b : Bool) : (s.setSticky b).buf = s.buf := rfl
@[simp] theorem State.setSticky_auth (s : State) (b : Bool) : (s.setSticky b).auth = s.auth := rfl
@[simp] theorem State.setSticky_buflen (s : State) (b : Bool) : (s.setSticky b).buflen = s.buflen := rfl
@[simp] theorem State.setSticky_err (s : State) (b : Bool) : (s.setSticky b).err = s.err := rfl
@[simp] theorem State.setSticky_sticky (s : State) (b : Bool) : (s.setSticky b).sticky = b := rfl
@[simp] theorem State.setSticky_res (s : State) (b : Bool) : (s.setSticky b).res = s.res := rfl
@[simp] theorem State.setSticky_opa (s : State) (b : Bool) : (s.setSticky b).opa = s.opa := rfl
@[simp] theorem State.setSticky_pending (s : State) (b : Bool) : (s.setSticky b).pending = s.pending := rfl

@[simp] theorem State.setRes_f (s : State) (v : Operand) : (s.setRes v).f = s.f := rfl
@[simp] theorem State.setRes_buf (s : State) (v : Operand) : (s.setRes v).buf = s.buf := rfl
@[simp] theorem State.setRes_auth (s : State) (v : Operand) : (s.setRes v).auth = s.auth := rfl
@[simp] theorem State.setRes_buflen (s : State) (v : Operand) : (s.setRes v).buflen = s.buflen := rfl
@[simp] theorem State.setRes_err (s : State) (v : Operand) : (s.setRes v).err = s.err := rfl
@[simp] theorem State.setRes_sticky (s : State) (v : Operand) : (s.setRes v).sticky = s.sticky := rfl
@[simp] theorem State.setRes_res (s : State) (v : Operand) : (s.setRes v).res = v := rfl
@[simp] theorem State.setRes_opa (s : State) (v : Operand) : (s.setRes v).opa = s.opa := rfl
@[simp] theorem State.setRes_pending (s : State) (v : Operand) : (s.setRes v).pending = s.pending := rfl

@[simp] theorem State.setOpa_f (s : State) (v : Operand) : (s.setOpa v).f = s.f := rfl
@[simp] theorem State.setOpa_buf (s : State) (v : Operand) : (s.setOpa v).buf = s.buf := rfl
@[simp] theorem State.setOpa_auth (s : State) (v : Operand) : (s.setOpa v).auth = s.auth := rfl
@[simp] theorem State.setOpa_buflen (s : State) (v : Operand) : (s.setOpa v).buflen = s.buflen := rfl
@[simp] theorem State.setOpa_err (s : State) (v : Operand) : (s.setOpa v).err = s.err := rfl
@[simp] theorem State.setOpa_sticky (s : State) (v : Operand) : (s.setOpa v).sticky = s.sticky := rfl
@[simp] theorem State.setOpa_res (s : State) (v : Operand) : (s.setOpa v).res = s.res := rfl
@[simp] theorem State.setOpa_opa (s : State) (v : Operand) : (s.setOpa v).opa = v := rfl
@[simp] theorem State.setOpa_pending (s : State) (v : Operand) : (s.setOpa v).pending = s.pending := rfl

@[simp] theorem State.setPending_f (s : State) (l : List HostInput) : (s.setPending l).f = s.f := rfl
@[simp] theorem State.setPending_buf (s : State) (l : List HostInput) : (s.setPending l).buf = s.buf := rfl
@[simp] theorem State.setPending_auth (s : State) (l : List HostInput) : (s.setPending l).auth = s.auth := rfl
@[simp] theorem State.setPending_buflen (s : State) (l : List HostInput) : (s.setPending l).buflen = s.buflen := rfl
@[simp] theorem State.setPending_err (s : State) (l : List HostInput) : (s.setPending l).err = s.err := rfl
@[simp] theorem State.setPending_sticky (s : State) (l : List HostInput) : (s.setPending l).sticky = s.sticky := rfl
@[simp] theorem State.setPending_res (s : State) (l : List HostInput) : (s.setPending l).res = s.res := rfl
@[simp] theorem State.setPending_opa (s : State) (l : List HostInput) : (s.setPending l).opa = s.opa := rfl
@[simp] theorem State.setPending_pending (s : State) (l : List HostInput) : (s.setPending l).pending = l := rfl

@[simp] theorem State.construct_f (s : State) (auth : Bool) : (s.construct auth).f = Fields.zero := rfl
@[simp] theorem State.construct_buf (s : State) (auth : Bool) : (s.construct auth).buf = Memory.zero := rfl
@[simp] theorem State.construct_auth (s : State) (auth : Bool) : (s.construct auth).auth = auth := rfl
@[simp] theorem State.construct_buflen (s : State) (auth : Bool) : (s.construct auth).buflen = messageLength auth := rfl
@[simp] theorem State.construct_err (s : State) (auth : Bool) : (s.construct auth).err = s.err := rfl
@[simp] theorem State.construct_sticky (s : State) (auth : Bool) : (s.construct auth).sticky = s.sticky := rfl
@[simp] theorem State.construct_res (s : State) (auth : Bool) : (s.construct auth).res = s.res := rfl
@[simp] theorem State.construct_opa (s : State) (auth : Bool) : (s.construct auth).opa = s.opa := rfl
@[simp] theorem State.construct_pending (s : State) (auth : Bool) : (s.construct auth).pending = s.pending := rfl

@[simp] theorem State.present_f (s : State) (opa : Operand) (rest : List HostInput) : (s.present opa rest).f = s.f := rfl
@[simp] theorem State.present_buf (s : State) (opa : Operand) (rest : List HostInput) : (s.present opa rest).buf = s.buf := rfl
@[simp] theorem State.present_auth (s : State) (opa : Operand) (rest : List HostInput) : (s.present opa rest).auth = s.auth := rfl
@[simp] theorem State.present_buflen (s : State) (opa : Operand) (rest : List HostInput) : (s.present opa rest).buflen = s.buflen := rfl
@[simp] theorem State.present_err (s : State) (opa : Operand) (rest : List HostInput) : (s.present opa rest).err = s.err := rfl
@[simp] theorem State.present_sticky (s : State) (opa : Operand) (rest : List HostInput) : (s.present opa rest).sticky = s.sticky := rfl
@[simp] theorem State.present_res (s : State) (opa : Operand) (rest : List HostInput) : (s.present opa rest).res = s.res := rfl
@[simp] theorem State.present_opa (s : State) (opa : Operand) (rest : List HostInput) : (s.present opa rest).opa = opa := rfl
@[simp] theorem State.present_pending (s : State) (opa : Operand) (rest : List HostInput) : (s.present opa rest).pending = rest := rfl

@[simp] theorem State.reset_f : State.reset.f = Fields.zero := rfl
@[simp] theorem State.reset_buf : State.reset.buf = [] := rfl
@[simp] theorem State.reset_auth : State.reset.auth = false := rfl
@[simp] theorem State.reset_buflen : State.reset.buflen = 48 := rfl
@[simp] theorem State.reset_err : State.reset.err = .ok := rfl
@[simp] theorem State.reset_sticky : State.reset.sticky = false := rfl
@[simp] theorem State.reset_res : State.reset.res = 0 := rfl
@[simp] theorem State.reset_opa : State.reset.opa = 0 := rfl
@[simp] theorem State.reset_pending : State.reset.pending = [] := rfl

@[simp] theorem State.hostReset_f (rest : List HostInput) : (State.hostReset rest).f = State.reset.f := rfl
@[simp] theorem State.hostReset_buf (rest : List HostInput) : (State.hostReset rest).buf = State.reset.buf := rfl
@[simp] theorem State.hostReset_auth (rest : List HostInput) : (State.hostReset rest).auth = State.reset.auth := rfl
@[simp] theorem State.hostReset_buflen (rest : List HostInput) : (State.hostReset rest).buflen = State.reset.buflen := rfl
@[simp] theorem State.hostReset_err (rest : List HostInput) : (State.hostReset rest).err = State.reset.err := rfl
@[simp] theorem State.hostReset_sticky (rest : List HostInput) : (State.hostReset rest).sticky = State.reset.sticky := rfl
@[simp] theorem State.hostReset_res (rest : List HostInput) : (State.hostReset rest).res = State.reset.res := rfl
@[simp] theorem State.hostReset_opa (rest : List HostInput) : (State.hostReset rest).opa = State.reset.opa := rfl
@[simp] theorem State.hostReset_pending (rest : List HostInput) : (State.hostReset rest).pending = rest := rfl

/-- States with the same field values are the same state. -/
theorem State.eq_of_fields {s t : State} (hf : s.f = t.f) (hb : s.buf = t.buf) (ha : s.auth = t.auth)
    (hl : s.buflen = t.buflen) (he : s.err = t.err) (hs : s.sticky = t.sticky) (hr : s.res = t.res)
    (ho : s.opa = t.opa) (hp : s.pending = t.pending) : s = t := by
  cases s; cases t; simp_all

/-! Field registers: reading after writing. -/

@[simp] theorem Fields.get_set_same (f : Fields) (r : FieldReg) (v : BitVec r.width) :
    (f.set r v).get r = v := by
  cases r <;> rfl

theorem Fields.get_set_other (f : Fields) (r r' : FieldReg) (v : BitVec r.width) (h : r' ≠ r) :
    (f.set r v).get r' = f.get r' := by
  cases r <;> cases r' <;> first | rfl | exact absurd rfl h

@[simp] theorem Fields.get_zero (r : FieldReg) : Fields.zero.get r = 0 := by
  cases r <;> rfl

/-- Field registers that agree on every register are the same. -/
theorem Fields.eq_of_get {f g : Fields} (h : ∀ r, f.get r = g.get r) : f = g := by
  have e : ∀ r, f.get r = g.get r := h
  cases f; cases g
  simp only [Fields.mk.injEq]
  exact ⟨e .li, e .vn, e .mode, e .stratum, e .poll, e .precision, e .rootDelay, e .rootDisp,
    e .refId, e .refTs, e .orgTs, e .rcvTs, e .xmtTs, e .keyId, e .digest⟩

@[simp] theorem FieldReg.ofIndex_index (r : FieldReg) : FieldReg.ofIndex r.index = some r := by
  cases r <;> rfl

theorem FieldReg.index_le (r : FieldReg) : r.index ≤ 14 := by
  cases r <;> decide

theorem FieldReg.ofIndex_eq_some {n : Nat} {r : FieldReg} (h : FieldReg.ofIndex n = some r) :
    n = r.index := by
  unfold FieldReg.ofIndex at h
  split at h <;> first | (cases h; rfl) | cases h

/-- Index 15 and above name no register; every index below does (R20). -/
theorem FieldReg.ofIndex_eq_none {n : Nat} : FieldReg.ofIndex n = none ↔ 14 < n := by
  constructor
  · intro h
    by_contra hn
    interval_cases n <;> simp [FieldReg.ofIndex] at h
  · intro h
    cases hr : FieldReg.ofIndex n with
    | none => rfl
    | some r =>
      have h1 := FieldReg.ofIndex_eq_some hr
      have h2 := r.index_le
      omega

end Sys2Proof.Machine
end

