-- ==== Sys2Proof/Laws/Memory.lean ====
section
/-! SUPPORT. The laws of the buffer: a read after a write, and that every operation keeps the canonical
form (R51, R59). -/

namespace Sys2Proof.Machine

@[simp] theorem Memory.zero_read (a : Nat) : Memory.zero.read a = 0 := rfl

/-- Nothing is listed below the first offset of a canonical listing. -/
theorem Memory.read_below (m : Memory) (lo : Nat) (h : m.wfFrom lo = true) (z : Nat) (hz : z < lo) :
    m.read z = Memory.unlisted := by
  induction m generalizing lo with
  | nil => rfl
  | cons e m ih =>
    obtain ⟨y, c⟩ := e
    simp only [Memory.wfFrom, Bool.and_eq_true, decide_eq_true_eq] at h
    have : y ≠ z := by omega
    simp only [Memory.read, this, if_false]
    exact ih _ h.2 (by omega)

/-- One write, as every later read sees it. -/
theorem Memory.read_write (m : Memory) (lo a : Nat) (b : Byte) (x : Nat) (h : m.wfFrom lo = true) :
    (m.write a b).read x = if x = a then b else m.read x := by
  induction m generalizing lo with
  | nil =>
    by_cases hb : b = Memory.unlisted <;> simp [Memory.write, hb, Memory.read, eq_comm]
  | cons e m ih =>
    obtain ⟨y, c⟩ := e
    simp only [Memory.wfFrom, Bool.and_eq_true, decide_eq_true_eq] at h
    obtain ⟨⟨⟨h1, h2⟩, h3⟩, h4⟩ := h
    have ih := ih _ h4
    by_cases hya : y < a
    · simp only [Memory.write, hya, if_true, Memory.read, ih]
      by_cases hyx : y = x
      · have : x ≠ a := by omega
        simp [hyx, this]
      · simp [hyx]
    · by_cases heq : y = a
      · subst heq
        by_cases hb : b = Memory.unlisted
        · subst hb
          simp only [Memory.write, hya, if_false, if_true, Memory.read]
          by_cases hxy : x = y
          · subst hxy
            simp [Memory.read_below _ _ h4 x (by omega)]
          · simp [hxy, Ne.symm hxy]
        · simp only [Memory.write, hya, if_false, if_true, hb, Memory.read, eq_comm]
          by_cases hxy : x = y
          · simp [hxy]
          · simp [hxy]
      · by_cases hb : b = Memory.unlisted
        · subst hb
          simp only [Memory.write, hya, heq, if_false, if_true, Memory.read]
          by_cases hxa : x = a
          · subst hxa
            simp [heq, Memory.read_below _ _ h4 x (by omega)]
          · simp [hxa]
        · simp only [Memory.write, hya, heq, if_false, hb, Memory.read, eq_comm (a := a)]

/-- The canonical form from a higher offset is the canonical form from a lower one. -/
theorem Memory.wfFrom_mono {m : Memory} {lo lo' : Nat} (hl : lo' ≤ lo) (hm : m.wfFrom lo = true) :
    m.wfFrom lo' = true := by
  cases m with
  | nil => rfl
  | cons e m =>
    simp only [Memory.wfFrom, Bool.and_eq_true, decide_eq_true_eq] at hm ⊢
    exact ⟨⟨⟨by omega, hm.1.1.2⟩, hm.1.2⟩, hm.2⟩

/-- A write of one byte inside the buffer keeps the canonical form, entry by entry. -/
theorem Memory.wfFrom_write (m : Memory) (lo a : Nat) (b : Byte) (hlo : lo ≤ a) (ha : a < 68)
    (h : m.wfFrom lo = true) : (m.write a b).wfFrom lo = true := by
  induction m generalizing lo with
  | nil => by_cases hb : b = Memory.unlisted <;> simp [Memory.write, hb, Memory.wfFrom, hlo, ha]
  | cons e m ih =>
    obtain ⟨y, c⟩ := e
    have h' := h
    simp only [Memory.wfFrom, Bool.and_eq_true, decide_eq_true_eq] at h
    obtain ⟨⟨⟨h1, h2⟩, h3⟩, h4⟩ := h
    by_cases hya : y < a
    · simp only [Memory.write, hya, if_true, Memory.wfFrom, Bool.and_eq_true, decide_eq_true_eq]
      exact ⟨⟨⟨h1, h2⟩, h3⟩, ih (y + 1) (by omega) h4⟩
    · by_cases heq : y = a
      · subst heq
        by_cases hb : b = Memory.unlisted
        · simp only [Memory.write, hya, if_false, if_true, hb]
          exact Memory.wfFrom_mono (by omega) h4
        · simp only [Memory.write, hya, if_false, if_true, hb, Memory.wfFrom, Bool.and_eq_true,
            decide_eq_true_eq]
          exact ⟨⟨⟨h1, h2⟩, hb⟩, h4⟩
      · by_cases hb : b = Memory.unlisted
        · simp only [Memory.write, hya, heq, if_false, if_true, hb]
          exact h'
        · simp only [Memory.write, hya, heq, if_false, hb, Memory.wfFrom, Bool.and_eq_true,
            decide_eq_true_eq]
          exact ⟨⟨⟨hlo, ha⟩, hb⟩, ⟨⟨⟨by omega, h2⟩, h3⟩, h4⟩⟩

/-- A write of one byte inside the buffer keeps the canonical form. -/
theorem Memory.wf_write (m : Memory) (a : Nat) (b : Byte) (ha : a < 68) (h : m.wf = true) :
    (m.write a b).wf = true :=
  Memory.wfFrom_write m 0 a b (Nat.zero_le a) ha h

/-- A write of several bytes inside the buffer keeps the canonical form. -/
theorem Memory.wf_writeBytes (m : Memory) (a : Nat) (bs : List Byte) (ha : a + bs.length ≤ 68)
    (h : m.wf = true) : (m.writeBytes a bs).wf = true := by
  induction bs generalizing m a with
  | nil => exact h
  | cons b bs ih =>
    simp only [List.length_cons] at ha
    exact ih (m.write a b) (a + 1) (by omega) (Memory.wf_write m a b (by omega) h)

@[simp] theorem Memory.wf_zero : Memory.zero.wf = true := rfl

theorem Memory.reset_wf : State.reset.buf.wf = true := rfl

/-- A write of several bytes, as every later read of one byte sees it: the named bytes change and no
other (R12, R51). -/
theorem Memory.read_writeBytes (m : Memory) (a : Nat) (bs : List Byte) (x : Nat)
    (ha : a + bs.length ≤ 68) (h : m.wf = true) :
    (m.writeBytes a bs).read x = if a ≤ x ∧ x < a + bs.length then bs.getD (x - a) 0 else m.read x := by
  induction bs generalizing m a with
  | nil =>
    have : ¬ (a ≤ x ∧ x < a) := by omega
    simp [Memory.writeBytes, this]
  | cons b bs ih =>
    simp only [List.length_cons] at ha
    rw [Memory.writeBytes, ih (m.write a b) (a + 1) (by omega) (Memory.wf_write m a b (by omega) h),
      Memory.read_write m 0 a b x h]
    by_cases hx : x = a
    · subst hx; simp
    · by_cases h1 : a + 1 ≤ x ∧ x < a + 1 + bs.length
      · have h2 : a ≤ x ∧ x < a + (bs.length + 1) := by omega
        obtain ⟨k, rfl⟩ : ∃ k, x = a + 1 + k := ⟨x - (a + 1), by omega⟩
        have e1 : a + 1 + k - (a + 1) = k := by omega
        have e2 : a + 1 + k - a = k + 1 := by omega
        simp only [h1, h2, List.length_cons, if_true, e1, e2, List.getD_cons_succ, and_self]
      · have h2 : ¬ (a ≤ x ∧ x < a + (bs.length + 1)) := by omega
        rw [if_neg h1, if_neg hx, List.length_cons, if_neg h2]

@[simp] theorem Memory.length_readBytes (m : Memory) (a n : Nat) : (m.readBytes a n).length = n := by
  induction n generalizing a with
  | zero => rfl
  | succ n ih => simp [Memory.readBytes, ih]

/-- The `i`-th byte read is the byte at offset `a + i`. -/
theorem Memory.getElem?_readBytes (m : Memory) (a n i : Nat) (hi : i < n) :
    (m.readBytes a n)[i]? = some (m.read (a + i)) := by
  induction n generalizing a i with
  | zero => omega
  | succ n ih =>
    cases i with
    | zero => simp [Memory.readBytes]
    | succ i =>
      rw [Memory.readBytes, List.getElem?_cons_succ, ih (a + 1) i (by omega)]
      congr 2; omega

/-- Reading depends only on the bytes at the offsets read. -/
theorem Memory.readBytes_congr (m m' : Memory) (a n : Nat)
    (h : ∀ x, a ≤ x → x < a + n → m.read x = m'.read x) : m.readBytes a n = m'.readBytes a n := by
  induction n generalizing a with
  | zero => rfl
  | succ n ih =>
    rw [Memory.readBytes, Memory.readBytes, h a (by omega) (by omega),
      ih (a + 1) (fun x h1 h2 => h x (by omega) (by omega))]

/-- Reading back what was just written. -/
theorem Memory.readBytes_writeBytes_same (m : Memory) (a : Nat) (bs : List Byte)
    (ha : a + bs.length ≤ 68) (h : m.wf = true) :
    (m.writeBytes a bs).readBytes a bs.length = bs := by
  apply List.ext_getElem?
  intro i
  by_cases hi : i < bs.length
  · rw [Memory.getElem?_readBytes _ _ _ _ hi, Memory.read_writeBytes m a bs _ ha h]
    have : a ≤ a + i ∧ a + i < a + bs.length := by omega
    simp [this, List.getD_eq_getElem?_getD, hi]
  · rw [List.getElem?_eq_none (by simpa using hi), List.getElem?_eq_none (by simpa using hi)]

/-- Bytes outside the offsets written read as before. -/
theorem Memory.readBytes_writeBytes_apart (m : Memory) (a : Nat) (bs : List Byte) (x n : Nat)
    (ha : a + bs.length ≤ 68) (h : m.wf = true) (hx : x + n ≤ a ∨ a + bs.length ≤ x) :
    (m.writeBytes a bs).readBytes x n = m.readBytes x n := by
  apply Memory.readBytes_congr
  intro y h1 h2
  rw [Memory.read_writeBytes m a bs y ha h]
  have : ¬ (a ≤ y ∧ y < a + bs.length) := by omega
  simp [this]

/-- Canonical listings that read the same everywhere are the same listing. -/
theorem Memory.eq_of_read (m m' : Memory) (h : m.wf = true) (h' : m'.wf = true)
    (hr : ∀ x, m.read x = m'.read x) : m = m' := by
  have key : ∀ (m m' : Memory) (lo lo' : Nat), m.wfFrom lo = true → m'.wfFrom lo' = true →
      (∀ x, m.read x = m'.read x) → m = m' := by
    intro m
    induction m with
    | nil =>
      intro m' lo lo' _ h' hr
      cases m' with
      | nil => rfl
      | cons e m' =>
        obtain ⟨y, c⟩ := e
        simp only [Memory.wfFrom, Bool.and_eq_true, decide_eq_true_eq] at h'
        have := hr y
        simp only [Memory.read, if_true] at this
        exact absurd this.symm h'.1.2
    | cons e m ih =>
      obtain ⟨y, c⟩ := e
      intro m' lo lo' h h' hr
      simp only [Memory.wfFrom, Bool.and_eq_true, decide_eq_true_eq] at h
      cases m' with
      | nil =>
        have := hr y
        simp only [Memory.read, if_true] at this
        exact absurd this h.1.2
      | cons e' m' =>
        obtain ⟨y', c'⟩ := e'
        simp only [Memory.wfFrom, Bool.and_eq_true, decide_eq_true_eq] at h'
        have hy : y = y' := by
          rcases Nat.lt_trichotomy y y' with hlt | heq | hgt
          · have e1 := hr y
            have hne : y' ≠ y := by omega
            simp only [Memory.read, if_true, hne, if_false, Memory.read_below _ _ h'.2 y (by omega)] at e1
            exact absurd e1 h.1.2
          · exact heq
          · have e1 := hr y'
            have hne : y ≠ y' := by omega
            simp only [Memory.read, if_true, hne, if_false, Memory.read_below _ _ h.2 y' (by omega)] at e1
            exact absurd e1.symm h'.1.2
        subst hy
        have hc : c = c' := by
          have := hr y
          simpa [Memory.read] using this
        subst hc
        have hm : m = m' := by
          apply ih m' _ _ h.2 h'.2
          intro x
          by_cases hxy : y = x
          · subst hxy
            rw [Memory.read_below _ _ h.2 y (by omega), Memory.read_below _ _ h'.2 y (by omega)]
          · have := hr x
            simpa [Memory.read, hxy] using this
        rw [hm]
  exact key m m' 0 0 h h' hr

end Sys2Proof.Machine
end

