-- ==== Sys2Proof/Laws/Numeric.lean ====
section
/-! SUPPORT. The laws of the conversions: big-endian bytes and numbers are each other's inverse (R11), and
the sizes of what each function gives (R120, R121). -/

namespace Sys2Proof.Machine

/-! ## Big-endian bytes -/

theorem two_pow_eight_mul (w : Nat) : 2 ^ (8 * w) = 256 ^ w := by
  rw [pow_mul]; norm_num

@[simp] theorem length_beEnc (v w : Nat) : (beEnc v w).length = w := by
  induction w with
  | zero => rfl
  | succ w ih => simp [beEnc, ih]

theorem beDec_lt (bs : List Byte) : beDec bs < 256 ^ bs.length := by
  induction bs with
  | nil => simp [beDec]
  | cons b bs ih =>
    have hb := b.isLt
    simp only [beDec, List.length_cons, pow_succ]
    nlinarith [Nat.mul_le_mul_right (256 ^ bs.length) (Nat.le_of_lt_succ hb)]

/-- `be_dec(be_enc(v, w)) = v mod 2^(8w)` (R11). -/
theorem beDec_beEnc (v w : Nat) : beDec (beEnc v w) = v % 256 ^ w := by
  induction w with
  | zero => simp [beEnc, beDec, Nat.mod_one]
  | succ w ih =>
    have hp := two_pow_eight_mul (w)
    have hm := Nat.mod_mul (x := v) (a := 256 ^ w) (b := 256)
    rw [beEnc, beDec, ih, length_beEnc, BitVec.toNat_ofNat, Nat.shiftRight_eq_div_pow, hp,
      show 256 ^ (w + 1) = 256 ^ w * 256 from pow_succ 256 w, hm, show 2 ^ 8 = 256 by norm_num, Nat.add_comm]

/-- Encoding looks at the low `8w` bits only. -/
theorem beEnc_mod (v w k : Nat) (h : w ≤ k) : beEnc (v % 256 ^ k) w = beEnc v w := by
  induction w with
  | zero => rfl
  | succ w ih =>
    rw [beEnc, beEnc, ih (by omega)]
    congr 1
    apply BitVec.eq_of_toNat_eq
    have hp := two_pow_eight_mul (w)
    obtain ⟨d, rfl⟩ : ∃ d, k = w + 1 + d := ⟨k - (w + 1), by omega⟩
    rw [BitVec.toNat_ofNat, BitVec.toNat_ofNat, Nat.shiftRight_eq_div_pow, Nat.shiftRight_eq_div_pow, hp,
      show 256 ^ (w + 1 + d) = 256 ^ w * (256 * 256 ^ d) by ring, Nat.mod_mul_right_div_self]
    exact Nat.mod_mod_of_dvd _ ⟨256 ^ d, rfl⟩

/-- `be_enc(be_dec(bytes), w) = bytes` (R11). -/
theorem beEnc_beDec (bs : List Byte) : beEnc (beDec bs) bs.length = bs := by
  induction bs with
  | nil => rfl
  | cons b bs ih =>
    have hlt := beDec_lt bs
    have hp := two_pow_eight_mul (bs.length)
    have hpos : 0 < 256 ^ bs.length := Nat.pow_pos (by decide)
    rw [List.length_cons, beEnc]
    congr 1
    · apply BitVec.eq_of_toNat_eq
      rw [BitVec.toNat_ofNat, Nat.shiftRight_eq_div_pow, hp, beDec, Nat.add_comm,
        Nat.add_mul_div_left _ _ hpos, Nat.div_eq_of_lt hlt, Nat.zero_add]
      exact Nat.mod_eq_of_lt b.isLt
    · have e : beDec (b :: bs) % 256 ^ bs.length = beDec bs := by
        rw [beDec, Nat.add_comm, Nat.add_mul_mod_self_left, Nat.mod_eq_of_lt hlt]
      rw [← beEnc_mod (beDec (b :: bs)) bs.length bs.length le_rfl, e, ih]

/-- The byte at place `i` of `w` big-endian bytes is `(v >> 8*(w-1-i)) & 0xFF` (R11). -/
theorem getElem?_beEnc (v w i : Nat) (h : i < w) :
    (beEnc v w)[i]? = some (BitVec.ofNat 8 (v >>> (8 * (w - 1 - i)))) := by
  induction w generalizing i with
  | zero => omega
  | succ w ih =>
    cases i with
    | zero => simp [beEnc]
    | succ i =>
      rw [beEnc, List.getElem?_cons_succ, ih i (by omega)]
      congr 4; omega

/-! ## Timestamps -/

@[simp] theorem length_tsEnc (ms : Int) : (tsEnc ms).length = 8 := by
  simp [tsEnc]

/-- The fraction word fits in 32 bits (R121). -/
theorem tsFrac_lt (r : Nat) (h : r < 1000) : tsFrac r < 2 ^ 32 := by
  simp only [tsFrac, Config.tsFracBits, Config.msPerS]
  omega

/-- `ts_dec` gives at most 4 294 967 295 999 (R120). -/
theorem tsDec_lt (bytes : List Byte) : tsDec bytes < 4294967296000 := by
  have h1 := beDec_lt (bytes.take 4)
  have h2 := beDec_lt ((bytes.drop 4).take 4)
  have l1 : (bytes.take 4).length ≤ 4 := by simp
  have l2 : ((bytes.drop 4).take 4).length ≤ 4 := by simp
  have p1 : 256 ^ (bytes.take 4).length ≤ 256 ^ 4 := Nat.pow_le_pow_right (by decide) l1
  have p2 : 256 ^ ((bytes.drop 4).take 4).length ≤ 256 ^ 4 := Nat.pow_le_pow_right (by decide) l2
  simp only [tsDec, Config.msPerS, Config.tsFracBits]
  omega

/-- The seconds and the fraction of encoded bytes, read as big-endian words. -/
theorem tsDec_tsEnc (ms : Int) :
    tsDec (tsEnc ms) = 1000 * (BitVec.ofInt 32 (ms / 1000)).toNat + 1000 * tsFrac (ms % 1000).toNat / 2 ^ 32 := by
  have hr : (ms % 1000).toNat < 1000 := by omega
  have hf := tsFrac_lt _ hr
  have hs := (BitVec.ofInt 32 (ms / 1000)).isLt
  have e : (256 : Nat) ^ 4 = 2 ^ 32 := by norm_num
  have t1 : (tsEnc ms).take 4 = beEnc (BitVec.ofInt 32 (ms / 1000)).toNat 4 := by
    simp [tsEnc]
  have t2 : ((tsEnc ms).drop 4).take 4 = beEnc (tsFrac (ms % 1000).toNat) 4 := by
    simp [tsEnc]
  rw [tsDec, t1, t2, beDec_beEnc, beDec_beEnc, e, Nat.mod_eq_of_lt hs, Nat.mod_eq_of_lt hf]

end Sys2Proof.Machine
end

