-- ==== Sys2Proof/Laws/Ops.lean ====
section
/-! SUPPORT. What each shared operation can do, said once: completing, raising, the range check, presenting
a command, and what each keeps of the invariant. -/

namespace Sys2Proof.Machine

theorem complete_eq (s : State) : complete s = .next (s.setErr .ok) := rfl

theorem raise_eq (e : ErrCode) (s : State) : raise e s = .next ((s.setErr e).setSticky true) := rfl

theorem idle_eq (s : State) : idle s = .next s := rfl

/-- Two answers `next` are the same answer only for the same state. -/
@[simp] theorem next_inj (s t : State) :
    ((Host.Outcome.next s : Result) = Host.Outcome.next t) ↔ s = t :=
  ⟨fun h => by cases h; rfl, fun h => by rw [h]⟩

@[simp] theorem inRange_true (t s : State) : inRange true t s = complete t := rfl

@[simp] theorem inRange_false (t s : State) : inRange false t s = raise .operandRange s := rfl

/-- A range-checked command completes in `t` or raises `OPERAND_RANGE`, by the check alone. -/
theorem inRange_cases {ok : Bool} {t s u : State} (h : inRange ok t s = .next u) :
    (ok = true ∧ u = t.setErr .ok) ∨
    (ok = false ∧ u = (s.setErr .operandRange).setSticky true) := by
  cases ok with
  | true => exact .inl ⟨rfl, ((next_inj _ _).1 h).symm⟩
  | false => exact .inr ⟨rfl, ((next_inj _ _).1 h).symm⟩

/-- Completing keeps the invariant when the buffer is in canonical form. -/
theorem complete_keeps_inv {s t : State} (hb : s.buf.wf = true) (h : complete s = .next t) : t.Inv := by
  have e := (next_inj _ _).1 (h.symm.trans (complete_eq s))
  subst e
  exact ⟨hb, fun h => absurd rfl h⟩

/-- Raising keeps the invariant. -/
theorem raise_keeps_inv {e : ErrCode} {s t : State} (hb : s.buf.wf = true) (h : raise e s = .next t) :
    t.Inv := by
  have e := (next_inj _ _).1 (h.symm.trans (raise_eq e s))
  subst e
  exact ⟨hb, fun _ => rfl⟩

theorem inBuffer_iff (a n : Nat) : inBuffer a n = true ↔ a + n ≤ 68 := by
  simp [inBuffer]

theorem accessInRange_iff (a w : Nat) : accessInRange a w = true ↔ w ≤ 16 ∧ a + w ≤ 68 := by
  simp [accessInRange, inBuffer]

theorem accessOk_iff (a w : Nat) : accessOk a w = true ↔ w ≤ 16 ∧ a + w ≤ 68 := by
  simp [accessOk]

@[simp] theorem messageLength_true : messageLength true = 68 := rfl

@[simp] theorem messageLength_false : messageLength false = 48 := rfl

@[simp] theorem length_paddedText (s : State) (w n : Nat) (h : n ≤ w) : (paddedText s w n).length = w := by
  simp [paddedText, h]

/-- The offsets 0..47 `ENCODE` builds are in canonical form. -/
theorem encodePlain_wf (f : Fields) : (encodePlain f).wf = true := by
  have bytes : ∀ (m : Memory) (a v : Nat), a + 4 ≤ 68 → m.wf = true → (m.writeBytes a (beEnc v 4)).wf = true :=
    fun m a v ha h => Memory.wf_writeBytes m a _ (by rw [length_beEnc]; exact ha) h
  have stamp : ∀ (m : Memory) (a : Nat) (ms : Int), a + 8 ≤ 68 → m.wf = true →
      (m.writeBytes a (tsEnc ms)).wf = true :=
    fun m a ms ha h => Memory.wf_writeBytes m a _ (by rw [length_tsEnc]; exact ha) h
  have h1 := Memory.wf_write _ 0 f.headerByte (by decide) Memory.wf_zero
  have h2 := Memory.wf_write _ 1 f.stratum (by decide) h1
  have h3 := Memory.wf_write _ 2 f.poll (by decide) h2
  have h4 := Memory.wf_write _ 3 f.precision (by decide) h3
  have h5 := bytes _ 4 (qEnc f.rootDelay).toNat (by decide) h4
  have h6 := bytes _ 8 (qEnc f.rootDisp).toNat (by decide) h5
  have h7 := bytes _ 12 f.refIdValue.toNat (by decide) h6
  have h8 := stamp _ 16 f.refTs.toInt (by decide) h7
  have h9 := stamp _ 24 f.orgTs.toInt (by decide) h8
  have h10 := stamp _ 32 f.rcvTs.toInt (by decide) h9
  have h11 := stamp _ 40 f.xmtTs.toInt (by decide) h10
  simp only [encodePlain]
  exact h11

/-- The buffer `ENCODE` builds is in canonical form. -/
theorem encodeMessage_wf (f : Fields) (auth : Bool) : (encodeMessage f auth).wf = true := by
  cases auth with
  | false =>
    simp only [encodeMessage, Bool.false_eq_true, if_false]
    exact encodePlain_wf f
  | true =>
    have h1 := Memory.wf_writeBytes (encodePlain f) 48 (beEnc f.keyId.toNat 4)
      (by rw [length_beEnc]; decide) (encodePlain_wf f)
    have h2 := Memory.wf_writeBytes _ 52 (beEnc f.digest.toNat 16) (by rw [length_beEnc]) h1
    simp only [encodeMessage, if_true]
    exact h2

end Sys2Proof.Machine
end

