-- ==== Sys2Proof/Laws/Exec.lean ====
section
/-! SUPPORT. One equation per meaning, for a command whose fields are in range, and what any command can do;
proofs cite these and unfold no meaning. -/

namespace Sys2Proof.Machine

/-! ## The command port -/

/-- A step with a command presented. -/
theorem step_command {s : State} {cmd : Word} {opa : Operand} {rest : List HostInput}
    (h : s.pending = .command cmd opa :: rest) : step s = perform cmd (s.present opa rest) := by
  simp only [step, h]

/-- A step with a reset. -/
theorem step_reset {s : State} {rest : List HostInput} (h : s.pending = .reset :: rest) :
    step s = .next (State.hostReset rest) := by
  simp only [step, h]

/-- A step with nothing presented. -/
theorem step_idle {s : State} (h : s.pending = []) : step s = .next s := by
  simp only [step, h]; rfl

/-- A legal word is performed as its command. -/
theorem perform_ok {cmd : Word} {i : Instr} (h : decode cmd = .ok i) (s : State) :
    perform cmd s = exec i s := by
  simp only [perform, h]

/-- An illegal word raises. -/
theorem perform_error {cmd : Word} {e : DecodeError} (h : decode cmd = .error e) (s : State) :
    perform cmd s = .next (s.raised .illegalCommand) := by
  simp only [perform, h]; rfl

/-! ## What a command in range does -/

theorem exec_new_eq (a : BitVec 8) (s : State) (h : a.toNat ≤ 1) :
    exec (.new a) s = .next ((s.construct (a == 1)).setErr .ok) := by
  have : decide (a.toNat ≤ 1) = true := by simpa using h
  simp only [exec, execNew, this]; rfl

theorem exec_setlen_eq (l : BitVec 16) (s : State) :
    exec (.setlen l) s = .next ((s.setBuflen l).setErr .ok) := rfl

theorem exec_wrf_eq (a : BitVec 8) (r : FieldReg) (s : State) (h : a.toNat = r.index) :
    exec (.wrf a) s = .next ((s.setF (s.f.set r (s.opa.setWidth r.width))).setErr .ok) := by
  have : FieldReg.ofIndex a.toNat = some r := by rw [h]; cases r <;> rfl
  simp only [exec, execWrf, this]; rfl

theorem exec_rdf_eq (a : BitVec 8) (r : FieldReg) (s : State) (h : a.toNat = r.index) :
    exec (.rdf a) s = .next ((s.setRes (s.f.show128 r)).setErr .ok) := by
  have : FieldReg.ofIndex a.toNat = some r := by rw [h]; cases r <;> rfl
  simp only [exec, execRdf, this]; rfl

theorem exec_decode_eq (s : State) (h : s.lengthOk) :
    exec .decode s =
      .next (((s.setAuth (s.buflen == 68)).setF (decodeFields s.buf (s.buflen == 68))).setErr .ok) := by
  have h' : s.buflen = BitVec.ofNat 16 Config.lenPlain ∨ s.buflen = BitVec.ofNat 16 Config.lenAuth := h
  simp only [exec, execDecode, if_pos h']; rfl

theorem exec_encode_eq (s : State) :
    exec .encode s =
      .next (((s.setBuf (encodeMessage s.f s.auth)).setBuflen (messageLength s.auth)).setErr .ok) := rfl

theorem exec_stu_eq (a w : BitVec 8) (s : State) (hw : w.toNat ≤ 16) (h : a.toNat + w.toNat ≤ 68) :
    exec (.stu a w) s =
      .next ((s.setBuf (s.buf.writeBytes a.toNat (beEnc (s.opaBytes w.toNat) w.toNat))).setErr .ok) := by
  have : accessInRange a.toNat w.toNat = true := (accessInRange_iff _ _).2 ⟨hw, h⟩
  simp only [exec, execStu, this]; rfl

theorem exec_ldu_eq (a w : BitVec 8) (s : State) (hw : w.toNat ≤ 16) (h : a.toNat + w.toNat ≤ 68) :
    exec (.ldu a w) s = .next ((s.setRes (resUnsigned (s.bufUint a.toNat w.toNat))).setErr .ok) := by
  have : accessInRange a.toNat w.toNat = true := (accessInRange_iff _ _).2 ⟨hw, h⟩
  simp only [exec, execLdu, this]; rfl

theorem exec_ldb_eq (a w : BitVec 8) (s : State) (hw : w.toNat ≤ 16) (h : a.toNat + w.toNat ≤ 68) :
    exec (.ldb a w) s = .next ((s.setRes (resUnsigned (s.bufUint a.toNat w.toNat))).setErr .ok) := by
  have : accessInRange a.toNat w.toNat = true := (accessInRange_iff _ _).2 ⟨hw, h⟩
  simp only [exec, execLdb, this]; rfl

theorem exec_lds8_eq (a : BitVec 8) (s : State) (h : a.toNat ≤ 67) :
    exec (.lds8 a) s = .next ((s.setRes ((s.buf.read a.toNat).signExtend 128)).setErr .ok) := by
  have : inBuffer a.toNat 1 = true := (inBuffer_iff _ _).2 (by omega)
  simp only [exec, execLds8, this]; rfl

theorem exec_stb_eq (a w n : BitVec 8) (s : State) (hw : w.toNat ≤ 16) (h : a.toNat + w.toNat ≤ 68)
    (hn : n.toNat ≤ w.toNat) :
    exec (.stb a w n) s =
      .next ((s.setBuf (s.buf.writeBytes a.toNat (paddedText s w.toNat n.toNat))).setErr .ok) := by
  have h1 : accessInRange a.toNat w.toNat = true := (accessInRange_iff _ _).2 ⟨hw, h⟩
  have h2 : decide (n.toNat ≤ w.toNat) = true := by simpa using hn
  simp only [exec, execStb, h1, h2]; rfl

theorem exec_tsenc_eq (a : BitVec 8) (s : State) (h : a.toNat ≤ 60) :
    exec (.tsenc a) s = .next ((s.setBuf (s.buf.writeBytes a.toNat (tsEnc s.opa64.toInt))).setErr .ok) := by
  have hk : inBuffer a.toNat 8 = true := (inBuffer_iff _ _).2 (by omega)
  simp only [exec, execTsenc, hk]; rfl

theorem exec_tsdec_eq (a : BitVec 8) (s : State) (h : a.toNat ≤ 60) :
    exec (.tsdec a) s = .next ((s.setRes (resUnsigned (tsDec (s.buf.readBytes a.toNat 8)))).setErr .ok) := by
  have hk : inBuffer a.toNat 8 = true := (inBuffer_iff _ _).2 (by omega)
  simp only [exec, execTsdec, hk]; rfl

theorem exec_u2n_eq (s : State) :
    exec .u2n s = .next
      ((s.setRes ((BitVec.ofInt 64 (unixToNtpMillis s.opa64.toInt)).signExtend 128)).setErr .ok) := rfl

theorem exec_n2u_eq (s : State) :
    exec .n2u s = .next ((s.setRes (unixSplit s.opa64.toInt)).setErr .ok) := rfl

theorem exec_qenc_eq (s : State) :
    exec .qenc s = .next ((s.setRes ((qEnc s.opa64).setWidth 128)).setErr .ok) := rfl

theorem exec_qdec_eq (s : State) :
    exec .qdec s = .next ((s.setRes ((qDec s.opa32).setWidth 128)).setErr .ok) := rfl

/-! ## What any command can do -/

/-- A command completes, keeping `STICKY`, or raises one error and does nothing else. -/
theorem exec_completes_or_raises (i : Instr) (s : State) : ∃ t, exec i s = .next t ∧
   ((t.err = .ok ∧ t.sticky = s.sticky ∧ t.opa = s.opa ∧ t.pending = s.pending) ∨ (t.err ≠ .ok ∧ t = s.raised t.err)) := by
  have hr : ∀ ok t, t.sticky = s.sticky → t.opa = s.opa → t.pending = s.pending → ∃ u, inRange ok t s = .next u ∧
   ((u.err = .ok ∧ u.sticky = s.sticky ∧ u.opa = s.opa ∧ u.pending = s.pending) ∨ (u.err ≠ .ok ∧ u = s.raised u.err)) := by
    intro ok t h1 h2 h3
    cases ok
    · exact ⟨_, rfl, .inr ⟨by simp, rfl⟩⟩
    · exact ⟨_, rfl, .inl ⟨rfl, h1, h2, h3⟩⟩
  cases i with
  | new a => exact hr _ _ rfl rfl rfl
  | decode =>
    by_cases h : s.buflen = BitVec.ofNat 16 Config.lenPlain ∨ s.buflen = BitVec.ofNat 16 Config.lenAuth
    · (simp only [exec, execDecode, if_pos h]; exact ⟨_, rfl, .inl ⟨rfl, rfl, rfl, rfl⟩⟩)
    · (simp only [exec, execDecode, if_neg h]; exact ⟨_, rfl, .inr ⟨by simp, rfl⟩⟩)
  | wrf a =>
    cases h : FieldReg.ofIndex a.toNat with
    | none => (simp only [exec, execWrf, h]; exact ⟨_, rfl, .inr ⟨by simp, rfl⟩⟩)
    | some r => (simp only [exec, execWrf, h]; exact ⟨_, rfl, .inl ⟨rfl, rfl, rfl, rfl⟩⟩)
  | rdf a =>
    cases h : FieldReg.ofIndex a.toNat with
    | none => (simp only [exec, execRdf, h]; exact ⟨_, rfl, .inr ⟨by simp, rfl⟩⟩)
    | some r => (simp only [exec, execRdf, h]; exact ⟨_, rfl, .inl ⟨rfl, rfl, rfl, rfl⟩⟩)
  | stu a w => exact hr _ _ rfl rfl rfl
  | ldu a w => exact hr _ _ rfl rfl rfl
  | lds8 a => exact hr _ _ rfl rfl rfl
  | stb a w n => exact hr _ _ rfl rfl rfl
  | ldb a w => exact hr _ _ rfl rfl rfl
  | tsenc a => exact hr _ _ rfl rfl rfl
  | tsdec a => exact hr _ _ rfl rfl rfl
  | _ => exact ⟨_, rfl, .inl ⟨rfl, rfl, rfl, rfl⟩⟩

end Sys2Proof.Machine
end

