-- ==== Sys2Proof/Laws/PerInstr.lean ====
section
/-! SUPPORT. Families of statements about commands as syntax, one lemma per constructor of Instr. -/

namespace Sys2Proof.Laws

/-- The word of a command matches its row of R76: `cmd & mask == match`. -/
def EncodedRow.Statement (i : Instr) : Prop := encode i &&& i.op.mask = i.op.matchWord

theorem and_zero8 (b : BitVec 8) : b &&& 0 = 0 := by simp

theorem EncodedRow.new (a : BitVec 8) : EncodedRow.Statement (.new a) :=
  formatR_matches .new a 0 0 (and_zero8 _) (by decide) (by decide)

theorem EncodedRow.decode : EncodedRow.Statement (.decode) :=
  formatR_matches .decode 0 0 0 (by decide) (by decide) (by decide)

theorem EncodedRow.encode : EncodedRow.Statement (.encode) :=
  formatR_matches .encode 0 0 0 (by decide) (by decide) (by decide)

theorem EncodedRow.wrf (a : BitVec 8) : EncodedRow.Statement (.wrf a) :=
  formatR_matches .wrf a 0 0 (and_zero8 _) (by decide) (by decide)

theorem EncodedRow.rdf (a : BitVec 8) : EncodedRow.Statement (.rdf a) :=
  formatR_matches .rdf a 0 0 (and_zero8 _) (by decide) (by decide)

theorem EncodedRow.setlen (imm16 : BitVec 16) : EncodedRow.Statement (.setlen imm16) :=
  formatL_matches imm16

theorem EncodedRow.stu (a w : BitVec 8) : EncodedRow.Statement (.stu a w) :=
  formatR_matches .stu a w 0 (and_zero8 _) (and_zero8 _) (by decide)

theorem EncodedRow.ldu (a w : BitVec 8) : EncodedRow.Statement (.ldu a w) :=
  formatR_matches .ldu a w 0 (and_zero8 _) (and_zero8 _) (by decide)

theorem EncodedRow.lds8 (a : BitVec 8) : EncodedRow.Statement (.lds8 a) :=
  formatR_matches .lds8 a 0 0 (and_zero8 _) (by decide) (by decide)

theorem EncodedRow.stb (a w n : BitVec 8) : EncodedRow.Statement (.stb a w n) :=
  formatR_matches .stb a w n (and_zero8 _) (and_zero8 _) (and_zero8 _)

theorem EncodedRow.ldb (a w : BitVec 8) : EncodedRow.Statement (.ldb a w) :=
  formatR_matches .ldb a w 0 (and_zero8 _) (and_zero8 _) (by decide)

theorem EncodedRow.tsenc (a : BitVec 8) : EncodedRow.Statement (.tsenc a) :=
  formatR_matches .tsenc a 0 0 (and_zero8 _) (by decide) (by decide)

theorem EncodedRow.tsdec (a : BitVec 8) : EncodedRow.Statement (.tsdec a) :=
  formatR_matches .tsdec a 0 0 (and_zero8 _) (by decide) (by decide)

theorem EncodedRow.u2n : EncodedRow.Statement (.u2n) :=
  formatR_matches .u2n 0 0 0 (by decide) (by decide) (by decide)

theorem EncodedRow.n2u : EncodedRow.Statement (.n2u) :=
  formatR_matches .n2u 0 0 0 (by decide) (by decide) (by decide)

theorem EncodedRow.qenc : EncodedRow.Statement (.qenc) :=
  formatR_matches .qenc 0 0 0 (by decide) (by decide) (by decide)

theorem EncodedRow.qdec : EncodedRow.Statement (.qdec) :=
  formatR_matches .qdec 0 0 0 (by decide) (by decide) (by decide)

end Sys2Proof.Laws
end

