-- ==== Sys2Proof/Laws/Wire.lean ====
section
/-! SUPPORT. The wire formats: what the conversions give as numbers, and what each offset of an encoded
message holds. -/

namespace Sys2Proof.Machine

/-! ## Integers and floors -/

/-- The floor of a quotient is the quotient of integers. -/
theorem floor_int_div_nat (x : ℤ) (n : ℕ) : ⌊(x : ℚ) / n⌋ = x / n := by
  exact Rat.floor_intCast_div_natCast x n

/-- Four bytes hold a 32-bit number. -/
theorem beDec_four_lt (m : Memory) (a : ℕ) : beDec (m.readBytes a 4) < 4294967296 := by
  have := beDec_lt (m.readBytes a 4)
  rw [Memory.length_readBytes] at this; simpa using this

/-! ## Timestamps -/

/-- A timestamp is its seconds word and its fraction word. -/
theorem readBytes_eight_split (m : Memory) (a : Nat) :
    (m.readBytes a 8).take 4 = m.readBytes a 4 ∧
    ((m.readBytes a 8).drop 4).take 4 = m.readBytes (a+4) 4 := ⟨rfl, rfl⟩

/-- What 8 bytes written by `ts_enc` hold. -/
theorem holdsTimestamp_of_tsEnc (m : Memory) (a : Nat) (ms : Int) (h1 : m.readBytes a 8 = tsEnc ms) :
    HoldsTimestamp m a ms := by
  have t1 := congrArg (List.take 4) h1
  have t2 : ((m.readBytes a 8).drop 4).take 4 = ((tsEnc ms).drop 4).take 4 := by rw [h1]
  rw [(readBytes_eight_split _ _).1] at t1
  rw [(readBytes_eight_split _ _).2] at t2
  have u1 : (tsEnc ms).take 4 = beEnc (BitVec.ofInt 32 (ms / 1000)).toNat 4 := by simp [tsEnc]
  have u2 : ((tsEnc ms).drop 4).take 4 = beEnc (tsFrac (ms % 1000).toNat) 4 := by simp [tsEnc]
  have f1 : ⌊(ms : ℚ) / 1000⌋ = ms / 1000 := by exact_mod_cast floor_int_div_nat ms 1000
  have hr : (ms % 1000).toNat < 1000 := by omega
  have hf := tsFrac_lt _ hr
  refine ⟨?_, ?_⟩
  · rw [t1, u1, beDec_beEnc, f1]
    have := (BitVec.ofInt 32 (ms / 1000)).isLt
    have h2 := BitVec.toNat_ofInt (n := 32) (ms / 1000)
    rw [h2]; push_cast; omega
  · rw [t2, u2, beDec_beEnc, f1]
    have e : (ms - 1000 * (ms / 1000) : ℤ) = ms % 1000 := by omega
    rw [e]
    have : ((ms % 1000 : ℤ) : ℚ) * 2 ^ 32 / 1000 = ((ms % 1000 * 2^32 : ℤ) : ℚ) / (1000 : ℕ) := by push_cast; ring
    rw [this, floor_int_div_nat]
    rw [show (256:ℕ)^4 = 2^32 by norm_num, Nat.mod_eq_of_lt hf]
    simp only [tsFrac, Config.msPerS, Config.tsFracBits]
    push_cast
    omega

/-- Reading a timestamp back where it was written. -/
theorem readBytes_tsEnc (m : Memory) (a : Nat) (ms : Int) (h : a + 8 ≤ 68) (hwf : m.wf = true) :
    (m.writeBytes a (tsEnc ms)).readBytes a 8 = tsEnc ms := by
  have := Memory.readBytes_writeBytes_same m a (tsEnc ms) (by rw [length_tsEnc]; exact h) hwf
  rwa [length_tsEnc] at this

/-- `ts_dec` after `ts_enc`, for any number of milliseconds. -/
theorem tsDec_tsEnc_trip (ms : Int) : (tsDec (tsEnc ms) : ℤ) = afterTrip (ms % 4294967296000) := by
  rw [tsDec_tsEnc]
  have h2 := BitVec.toNat_ofInt (n := 32) (ms / 1000)
  have h3 : ((BitVec.ofInt 32 (ms/1000)).toNat : ℤ) = (ms / 1000) % 4294967296 := by
    rw [h2]; norm_num; omega
  simp only [tsFrac, Config.tsFracBits, Config.msPerS, afterTrip]
  have h4 : ((ms % 1000).toNat : ℤ) = ms % 1000 := by omega
  generalize (BitVec.ofInt 32 (ms/1000)).toNat = x at *
  have key : ∀ r : ℕ, r < 1000 → 1000 * (2 ^ 32 * r / 1000) / 2 ^ 32 = if r % 125 = 0 then r else r - 1 := by
    intro r hr
    have e1 : 2^32 * r / 1000 = 536870912 * r / 125 := by omega
    rw [e1]
    by_cases h : r % 125 = 0
    · rw [if_pos h]
      obtain ⟨k, rfl⟩ : ∃ k, r = 125 * k := ⟨r / 125, by omega⟩
      omega
    · rw [if_neg h]
      have := Nat.div_add_mod (536870912 * r) 125
      have h3 : (536870912 * r) % 125 ≠ 0 := by omega
      generalize 536870912 * r / 125 = q at *
      omega
  have hr : (ms % 1000).toNat < 1000 := by omega
  rw [key _ hr]
  push_cast
  rw [h3]
  split <;> split <;> omega

/-- `ts_enc` after `ts_dec`: the seconds stay, the fraction is fraction_lowered. -/
theorem tsEnc_tsDec_words (bytes : List Byte) : beDec ((tsEnc (tsDec bytes)).take 4) = beDec (bytes.take 4) ∧
   beDec (((tsEnc (tsDec bytes)).drop 4).take 4) = beDec ((bytes.drop 4).take 4) * 1000 / 2^32 * 2^32/1000 := by
  have u1 : ∀ ms, (tsEnc ms).take 4 = beEnc (BitVec.ofInt 32 (ms / 1000)).toNat 4 := by intro ms; simp [tsEnc]
  have u2 : ∀ ms, ((tsEnc ms).drop 4).take 4 = beEnc (tsFrac (ms % 1000).toNat) 4 := by intro ms; simp [tsEnc]
  rw [u1, u2, beDec_beEnc, beDec_beEnc]
  have l1 := beDec_lt (bytes.take 4)
  have l2 := beDec_lt ((bytes.drop 4).take 4)
  have p1 : 256 ^ (bytes.take 4).length ≤ 256 ^ 4 := Nat.pow_le_pow_right (by decide) (by simp)
  have p2 : 256 ^ ((bytes.drop 4).take 4).length ≤ 256 ^ 4 := Nat.pow_le_pow_right (by decide) (by simp)
  rw [show (256:ℕ)^4 = 4294967296 by norm_num] at *
  have k1 : beDec (bytes.take 4) < 4294967296 := lt_of_lt_of_le l1 p1
  have k2 : beDec ((bytes.drop 4).take 4) < 4294967296 := lt_of_lt_of_le l2 p2
  clear l1 l2 p1 p2
  have hd : tsDec bytes = 1000 * beDec (bytes.take 4) + 1000 * beDec ((bytes.drop 4).take 4) / 4294967296 := rfl
  rw [hd]
  generalize beDec (bytes.take 4) = x at *
  generalize beDec ((bytes.drop 4).take 4) = f at *
  have hy : 1000 * f / 4294967296 < 1000 := by omega
  have e3 : f * 1000 / 2^32 = 1000 * f / 4294967296 := by omega
  rw [e3]
  generalize 1000 * f / 4294967296 = y at *
  have e1 : ((1000 * x + y : ℕ) : ℤ) / 1000 = x := by omega
  have e2 : (((1000 * x + y : ℕ) : ℤ) % 1000).toNat = y := by omega
  rw [e1, e2]
  constructor
  · have : (BitVec.ofInt 32 (x : ℤ)).toNat = x := by
      rw [BitVec.toNat_ofInt]; norm_num; omega
    rw [this]; omega
  · simp only [tsFrac, Config.tsFracBits, Config.msPerS]
    rw [Nat.mul_comm y]
    apply Nat.mod_eq_of_lt
    omega

/-- How far the fraction is fraction_lowered. -/
theorem fraction_lowered (f : ℕ) (_hf : f < 4294967296) :
    f ≤ f * 1000 / 2^32 * 2^32/1000 + 4294968 ∧ f * 1000 / 2^32 * 2^32/1000 ≤ f := by
  constructor <;> omega

/-! ## Fixed point -/

/-- `q_dec` as a number. -/
theorem qDec_toNat (raw : BitVec 32) : (qDec raw).toNat = raw.toNat * 65536 := by
  have := raw.isLt
  simp only [qDec, Config.secFracBits, Config.qFracBits, BitVec.toNat_ofNat]; omega

/-- `q_dec` is never negative. -/
theorem qDec_toInt (raw : BitVec 32) : (qDec raw).toInt = raw.toNat * 65536 := by
  have := raw.isLt
  rw [BitVec.toInt_eq_toNat_cond, qDec_toNat]; split <;> omega

/-- The container form of `R` is `round(x * 65536)`. -/
theorem roundHalfAway_eq_qRound (x : ℤ) : roundHalfAway ((x : ℚ) / 2^32 * 65536) = qRound x := by
  have e : (x : ℚ) / 2^32 * 65536 = x / 65536 := by ring
  rw [e, roundHalfAway, qRound]
  rcases lt_trichotomy x 0 with h | h | h
  · have hq : (x : ℚ) / 65536 < 0 := div_neg_of_neg_of_pos (by exact_mod_cast h) (by norm_num)
    rw [sign_neg hq, abs_of_neg hq, if_neg (by omega)]
    have : -((x:ℚ) / 65536) + 1/2 = ((-x + 0x8000 : ℤ) : ℚ) / (65536 : ℕ) := by push_cast; ring
    rw [this, floor_int_div_nat]; push_cast; simp
  · subst h; simp
  · have hq : 0 < (x : ℚ) / 65536 := div_pos (by exact_mod_cast h) (by norm_num)
    rw [sign_pos hq, abs_of_pos hq, if_pos (by omega)]
    have : ((x:ℚ) / 65536) + 1/2 = ((x + 0x8000 : ℤ) : ℚ) / (65536 : ℕ) := by push_cast; ring
    rw [this, floor_int_div_nat]; push_cast; simp

/-- `q_enc` on the container is the word of R141. -/
theorem qEnc_toNat (x : BitVec 64) : ((qEnc x).toNat : ℤ) = q16Word (seconds x) := by
  simp only [q16Word, seconds]
  rw [roundHalfAway_eq_qRound, qEnc, BitVec.toNat_ofInt]; norm_num; omega

/-- `q_enc` after `q_dec` is the identity on the word. -/
theorem qEnc_qDec (raw : BitVec 32) : qEnc (qDec raw) = raw := by
  apply BitVec.eq_of_toNat_eq
  have := raw.isLt
  rw [qEnc, qDec_toInt, BitVec.toNat_ofInt, qRound]; norm_num
  omega

/-! ## Fields read from a message -/

/-- A word read is the number its bytes hold. -/
theorem word32_toNat (m : Memory) (a : ℕ) : (m.word32 a).toNat = beDec (m.readBytes a 4) := by
  have := beDec_four_lt m a
  simp only [Memory.word32, BitVec.toNat_ofNat]; omega

/-- A timestamp read is `ts_dec` of its bytes. -/
theorem timestamp_toNat (m : Memory) (a : ℕ) : (m.timestamp a).toNat = tsDec (m.readBytes a 8) := by
  have := tsDec_lt (m.readBytes a 8)
  simp only [Memory.timestamp, BitVec.toNat_ofNat]; omega

/-- The digest read is the number its bytes hold. -/
theorem digest_toNat (m : Memory) :
    (BitVec.ofNat 128 (beDec (m.readBytes 52 16))).toNat = beDec (m.readBytes 52 16) := by
  have := beDec_lt (m.readBytes 52 16)
  rw [Memory.length_readBytes] at this
  rw [BitVec.toNat_ofNat]; apply Nat.mod_eq_of_lt; simpa using this

/-- The three bit-fields of byte 0 as numbers. -/
theorem byteZero_fields (b : BitVec 8) :
    ((b &&& 0xC0) >>> 6).toNat = b.toNat / 64 ∧
    ((b &&& 0x38) >>> 3).toNat = b.toNat / 8 % 8 ∧
    (b &&& 7).toNat = b.toNat % 8 := by
  revert b; decide

/-! ## An encoded message -/

/-- Byte 0 of an encoded message as a number. -/
theorem headerByte_toNat (f : Fields) :
    f.headerByte.toNat = f.li.toNat % 4 * 64 + f.vn.toNat % 8 * 8 + f.mode.toNat % 8 := by
  have k : ∀ x y z : BitVec 8, (((x &&& 0x03) <<< 6) ||| ((y &&& 0x07) <<< 3) ||| (z &&& 0x07)).toNat = x.toNat % 4 * 64 + y.toNat % 8 * 8 + z.toNat % 8 := by
    intro x y z
    have hx : (x &&& 3) = BitVec.ofNat 8 (x.toNat % 4) := by revert x; decide
    have hy : (y &&& 7) = BitVec.ofNat 8 (y.toNat % 8) := by revert y; decide
    have hz : (z &&& 7) = BitVec.ofNat 8 (z.toNat % 8) := by revert z; decide
    rw [hx, hy, hz]
    have l1 : x.toNat % 4 < 4 := by omega
    have l2 : y.toNat % 8 < 8 := by omega
    have l3 : z.toNat % 8 < 8 := by omega
    generalize x.toNat % 4 = a at *
    generalize y.toNat % 8 = b at *
    generalize z.toNat % 8 = c at *
    interval_cases a <;> interval_cases b <;> interval_cases c <;> rfl
  exact k _ _ _

/-- Reading four bytes back where they were written. -/
theorem readBytes_beEnc_four (m : Memory) (a v : ℕ) (h : a + 4 ≤ 68) (hwf : m.wf = true) :
    (m.writeBytes a (beEnc v 4)).readBytes a 4 = beEnc v 4 := by
  have := Memory.readBytes_writeBytes_same m a (beEnc v 4) (by rw [length_beEnc]; exact h) hwf
  rwa [length_beEnc] at this

/-- A store leaves the bytes outside it. -/
theorem read_writeBytes_apart (m : Memory) (a : ℕ) (bs : List Byte) (x : ℕ) (ha : a + bs.length ≤ 68) (h : m.wf = true) (hx : x < a ∨ a + bs.length ≤ x) :
    (m.writeBytes a bs).read x = m.read x := by
  rw [Memory.read_writeBytes m a bs x ha h, if_neg (by omega)]

/-- A one-byte store leaves the ranges outside it. -/
theorem readBytes_write_apart (m : Memory) (a : ℕ) (b : Byte) (x n : ℕ) (h : m.wf = true) (hx : x + n ≤ a ∨ a < x) :
    (m.write a b).readBytes x n = m.readBytes x n := by
  apply Memory.readBytes_congr
  intro y h1 h2
  rw [Memory.read_write m 0 a b y h, if_neg (by omega)]

/-- Offsets 0..47 of an encoded message. -/
structure EncodedAs (m : Memory) (f : Fields) : Prop where
  b0 : m.read 0 = f.headerByte
  b1 : m.read 1 = f.stratum
  b2 : m.read 2 = f.poll
  b3 : m.read 3 = f.precision
  d : m.readBytes 4 4 = beEnc (qEnc f.rootDelay).toNat 4
  p : m.readBytes 8 4 = beEnc (qEnc f.rootDisp).toNat 4
  r : m.readBytes 12 4 = beEnc f.refIdValue.toNat 4
  t1 : m.readBytes 16 8 = tsEnc f.refTs.toInt
  t2 : m.readBytes 24 8 = tsEnc f.orgTs.toInt
  t3 : m.readBytes 32 8 = tsEnc f.rcvTs.toInt
  t4 : m.readBytes 40 8 = tsEnc f.xmtTs.toInt

/-- The plain part of an encoded message, and zeros above it. -/
theorem encodePlain_bytes (f : Fields) :
    EncodedAs (encodePlain f) f ∧ ∀ x, 48 ≤ x → (encodePlain f).read x = 0 := by
  have bytes : ∀ (m : Memory) (a v : Nat),
      a + 4 ≤ 68 → m.wf = true → (m.writeBytes a (beEnc v 4)).wf = true :=
    fun m a v ha h => Memory.wf_writeBytes m a _ (by rw [length_beEnc]; exact ha) h
  have stamp : ∀ (m : Memory) (a : Nat) (ms : Int), a + 8 ≤ 68 → m.wf = true →
      (m.writeBytes a (tsEnc ms)).wf = true :=
    fun m a ms ha h => Memory.wf_writeBytes m a _ (by rw [length_tsEnc]; exact ha) h
  have h0 := Memory.wf_zero
  have h1 := Memory.wf_write _ 0 f.headerByte (by decide) Memory.wf_zero
  have h2 := Memory.wf_write _ 1 f.stratum (by decide) h1
  have h3 := Memory.wf_write _ 2 f.poll (by decide) h2
  have h4 := Memory.wf_write _ 3 f.precision (by decide) h3
  have h5 := bytes _ 4 (qEnc f.rootDelay).toNat (by decide) h4
  have h6 := bytes _ 8 (qEnc f.rootDisp).toNat (by decide) h5
  have h7 := bytes _ 12 f.refIdValue.toNat (by decide) h6
  have h8 := stamp _ 16 f.refTs.toInt (by decide) h7
  have h9 := stamp _ 24 f.orgTs.toInt (by decide) h8
  have h10 := stamp _ 32 f.rcvTs.toInt (by decide) h9
  simp only [encodePlain]
  have apB : ∀ (m : Memory) (a v x n : Nat), m.wf = true → a + 4 ≤ 68 → (x + n ≤ a ∨ a + 4 ≤ x) → (m.writeBytes a (beEnc v 4)).readBytes x n = m.readBytes x n :=
    fun m a v x n h ha hx => Memory.readBytes_writeBytes_apart m a _ x n (by rw [length_beEnc]; exact ha) h (by rw [length_beEnc]; exact hx)
  have apT : ∀ (m : Memory) (a : ℕ) (ms : ℤ) (x n : Nat), m.wf = true → a + 8 ≤ 68 → (x + n ≤ a ∨ a + 8 ≤ x) → (m.writeBytes a (tsEnc ms)).readBytes x n = m.readBytes x n :=
    fun m a v x n h ha hx => Memory.readBytes_writeBytes_apart m a _ x n (by rw [length_tsEnc]; exact ha) h (by rw [length_tsEnc]; exact hx)
  have rB : ∀ (m : Memory) (a v x : Nat), m.wf = true → a + 4 ≤ 68 → (x < a ∨ a + 4 ≤ x) → (m.writeBytes a (beEnc v 4)).read x = m.read x :=
    fun m a v x h ha hx => read_writeBytes_apart m a _ x (by rw [length_beEnc]; exact ha) h (by rw [length_beEnc]; exact hx)
  have rT : ∀ (m : Memory) (a : ℕ) (ms : ℤ) (x : Nat), m.wf = true → a + 8 ≤ 68 → (x < a ∨ a + 8 ≤ x) → (m.writeBytes a (tsEnc ms)).read x = m.read x :=
    fun m a v x h ha hx => read_writeBytes_apart m a _ x (by rw [length_tsEnc]; exact ha) h (by rw [length_tsEnc]; exact hx)
  have rd : ∀ (x : ℕ), (x < 4 ∨ 48 ≤ x) → ((((((((((((Memory.zero.write 0 f.headerByte).write 1 f.stratum).write 2 f.poll).write 3 f.precision).writeBytes 4 (beEnc (qEnc f.rootDelay).toNat 4)).writeBytes 8 (beEnc (qEnc f.rootDisp).toNat 4)).writeBytes 12 (beEnc f.refIdValue.toNat 4)).writeBytes 16 (tsEnc f.refTs.toInt)).writeBytes 24 (tsEnc f.orgTs.toInt)).writeBytes 32 (tsEnc f.rcvTs.toInt)).writeBytes 40 (tsEnc f.xmtTs.toInt)).read x) = if x = 3 then f.precision else if x = 2 then f.poll else if x = 1 then f.stratum else if x = 0 then f.headerByte else 0 := by
    intro x hx
    rw [rT _ 40 _ x h10 (by decide) (by omega), rT _ 32 _ x h9 (by decide) (by omega),
        rT _ 24 _ x h8 (by decide) (by omega), rT _ 16 _ x h7 (by decide) (by omega),
        rB _ 12 _ x h6 (by decide) (by omega), rB _ 8 _ x h5 (by decide) (by omega),
        rB _ 4 _ x h4 (by decide) (by omega),
        Memory.read_write _ 0 _ _ _ h3, Memory.read_write _ 0 _ _ _ h2, Memory.read_write _ 0 _ _ _ h1, Memory.read_write _ 0 _ _ _ h0, Memory.zero_read]
  refine ⟨⟨?_, ?_, ?_, ?_, ?_, ?_, ?_, ?_, ?_, ?_, ?_⟩, ?_⟩
  · rw [rd 0 (by decide)]; rfl
  · rw [rd 1 (by decide)]; rfl
  · rw [rd 2 (by decide)]; rfl
  · rw [rd 3 (by decide)]; rfl
  · rw [apT _ 40 _ _ _ h10 (by decide) (by decide), apT _ 32 _ _ _ h9 (by decide) (by decide),
      apT _ 24 _ _ _ h8 (by decide) (by decide), apT _ 16 _ _ _ h7 (by decide) (by decide),
      apB _ 12 _ _ _ h6 (by decide) (by decide), apB _ 8 _ _ _ h5 (by decide) (by decide),
      readBytes_beEnc_four _ _ _ (by decide) h4]
  · rw [apT _ 40 _ _ _ h10 (by decide) (by decide), apT _ 32 _ _ _ h9 (by decide) (by decide),
      apT _ 24 _ _ _ h8 (by decide) (by decide), apT _ 16 _ _ _ h7 (by decide) (by decide),
      apB _ 12 _ _ _ h6 (by decide) (by decide), readBytes_beEnc_four _ _ _ (by decide) h5]
  · rw [apT _ 40 _ _ _ h10 (by decide) (by decide), apT _ 32 _ _ _ h9 (by decide) (by decide),
      apT _ 24 _ _ _ h8 (by decide) (by decide), apT _ 16 _ _ _ h7 (by decide) (by decide),
      readBytes_beEnc_four _ _ _ (by decide) h6]
  · rw [apT _ 40 _ _ _ h10 (by decide) (by decide), apT _ 32 _ _ _ h9 (by decide) (by decide),
      apT _ 24 _ _ _ h8 (by decide) (by decide), readBytes_tsEnc _ _ _ (by decide) h7]
  · rw [apT _ 40 _ _ _ h10 (by decide) (by decide), apT _ 32 _ _ _ h9 (by decide) (by decide),
      readBytes_tsEnc _ _ _ (by decide) h8]
  · rw [apT _ 40 _ _ _ h10 (by decide) (by decide), readBytes_tsEnc _ _ _ (by decide) h9]
  · rw [readBytes_tsEnc _ _ _ (by decide) h10]
  · intro x hx
    rw [rd x (by omega), if_neg (by omega), if_neg (by omega), if_neg (by omega), if_neg (by omega)]

/-- An encoded message, offset by offset. -/
theorem encodeMessage_bytes (f : Fields) (auth : Bool) :
    EncodedAs (encodeMessage f auth) f ∧
    (auth = false → ∀ x, 48 ≤ x → (encodeMessage f auth).read x = 0) ∧
    (∀ x, 68 ≤ x → (encodeMessage f auth).read x = 0) ∧
    (auth = true → (encodeMessage f auth).readBytes 48 4 = beEnc f.keyId.toNat 4 ∧
    (encodeMessage f auth).readBytes 52 16 = beEnc f.digest.toNat 16) := by
  have hp := encodePlain_bytes f
  have hw := encodePlain_wf f
  cases auth with
  | false =>
    have e : encodeMessage f false = encodePlain f := by simp only [encodeMessage, Bool.false_eq_true, if_false]
    rw [e]
    exact ⟨hp.1, fun _ => hp.2, fun x hx => hp.2 x (by omega), fun h => by cases h⟩
  | true =>
    have e : encodeMessage f true = ((encodePlain f).writeBytes 48 (beEnc f.keyId.toNat 4)).writeBytes 52 (beEnc f.digest.toNat 16) := by simp only [encodeMessage, if_true]
    rw [e]
    generalize encodePlain f = m at *
    have h1 := Memory.wf_writeBytes m 48 (beEnc f.keyId.toNat 4) (by rw [length_beEnc]; decide) hw
    have rd : ∀ x, (x < 48 ∨ 68 ≤ x) → ((m.writeBytes 48 (beEnc f.keyId.toNat 4)).writeBytes 52 (beEnc f.digest.toNat 16)).read x = m.read x := by
      intro x hx
      rw [read_writeBytes_apart _ _ _ _ (by rw [length_beEnc]) h1 (by rw [length_beEnc]; omega),
          read_writeBytes_apart _ _ _ _ (by rw [length_beEnc]; decide) hw (by rw [length_beEnc]; omega)]
    have rb : ∀ x n, x + n ≤ 48 → ((m.writeBytes 48 (beEnc f.keyId.toNat 4)).writeBytes 52 (beEnc f.digest.toNat 16)).readBytes x n = m.readBytes x n := by
      intro x n h
      apply Memory.readBytes_congr; intro y h1 h2; exact rd y (by omega)
    obtain ⟨⟨a0, a1, a2, a3, a4, a5, a6, a7, a8, a9, a10⟩, hz⟩ := hp
    refine ⟨⟨by rw [rd _ (by decide), a0], by rw [rd _ (by decide), a1], by rw [rd _ (by decide), a2],
        by rw [rd _ (by decide), a3], by rw [rb _ _ (by decide), a4], by rw [rb _ _ (by decide), a5],
        by rw [rb _ _ (by decide), a6], by rw [rb _ _ (by decide), a7], by rw [rb _ _ (by decide), a8],
        by rw [rb _ _ (by decide), a9], by rw [rb _ _ (by decide), a10]⟩, fun h => (by cases h), ?_, ?_⟩
    · intro x hx
      rw [rd x (by omega)]; exact hz x (by omega)
    · intro _
      constructor
      · rw [Memory.readBytes_writeBytes_apart _ _ _ _ _ (by rw [length_beEnc]) h1 (.inl (by decide)),
          readBytes_beEnc_four _ _ _ (by decide) hw]
      · have := Memory.readBytes_writeBytes_same (m.writeBytes 48 (beEnc f.keyId.toNat 4)) 52 (beEnc f.digest.toNat 16) (by rw [length_beEnc]) h1
        rwa [length_beEnc] at this

end Sys2Proof.Machine
end

