-- ==== Sys2Proof/Tests/Slice0.lean ====
section
/-! SUPPORT. The model's own tests. Expected values are the spec's: V and T numbers are those of
`95_test_vectors.md`, P numbers its programs, R numbers its rules. The witnesses at the end show that the
hypotheses of every statement are met. -/

namespace Sys2Proof.Tests

open Sys2Proof Sys2Proof.Machine

/-! ## Small states and what a test looks at -/

/-- Reset, with an operand at the port. -/
def withOpa (opa : Operand) : State := State.reset.setOpa opa

/-- Reset, with bytes stored in the buffer and an operand at the port. -/
def holding (a : Nat) (bs : List Byte) (opa : Operand := 0) : State :=
  (withOpa opa).setBuf (Memory.zero.writeBytes a bs)

/-- Reset, with one input presented. -/
def presenting (cmd : Word) (opa : Operand := 0) : State :=
  State.reset.setPending [.command cmd opa]

/-- The state an outcome leaves. -/
def after (r : Result) : Option State :=
  match r with
  | .next t => some t
  | .fault _ => none
  | .refused _ => none

/-- `RES` after a command. -/
def resAfter (r : Result) : Option Operand := (after r).map (·.res)

/-- `STATUS` after a command. -/
def statusAfter (r : Result) : Option (BitVec 8) := (after r).map (·.status)

/-- The bytes of `BUF` at `a..a+n-1` after a command. -/
def bytesAfter (r : Result) (a n : Nat) : Option (List Byte) := (after r).map (·.buf.readBytes a n)

/-! ## `WellFormed` refuses what R78 says is out of range -/

theorem test_wf_new : Instr.wellFormed (.new 2) = false := by decide
theorem test_wf_wrf : Instr.wellFormed (.wrf 15) = false := by decide
theorem test_wf_rdf : Instr.wellFormed (.rdf 15) = false := by decide
theorem test_wf_stu_width : Instr.wellFormed (.stu 0 17) = false := by decide
theorem test_wf_stu_end : Instr.wellFormed (.stu 53 16) = false := by decide
theorem test_wf_stu_no_wrap : Instr.wellFormed (.stu 255 1) = false := by decide
theorem test_wf_ldu : Instr.wellFormed (.ldu 69 0) = false := by decide
theorem test_wf_lds8 : Instr.wellFormed (.lds8 68) = false := by decide
theorem test_wf_stb_text : Instr.wellFormed (.stb 0 2 3) = false := by decide
theorem test_wf_stb_end : Instr.wellFormed (.stb 65 4 4) = false := by decide
theorem test_wf_ldb : Instr.wellFormed (.ldb 65 4) = false := by decide
theorem test_wf_tsenc : Instr.wellFormed (.tsenc 61) = false := by decide
theorem test_wf_tsdec : Instr.wellFormed (.tsdec 61) = false := by decide

/-- The last values of the ranges are accepted (T6, T8, T18, T29, R78). -/
theorem test_wf_edges :
    Instr.wellFormed (.new 1) ∧ Instr.wellFormed (.wrf 14) ∧ Instr.wellFormed (.stu 52 16) ∧
    Instr.wellFormed (.stu 68 0) ∧ Instr.wellFormed (.lds8 67) ∧ Instr.wellFormed (.ldb 64 4) ∧
    Instr.wellFormed (.stb 52 16 16) ∧ Instr.wellFormed (.tsenc 60) := by decide

/-! ## Decoding: words written out from R71, R72, R75 (`op`, `a`, `w`, `n`, or `op`, 0, `imm16`) -/

theorem test_decode_message_codec :
    decode 0x01010000 = .ok (.new 1) ∧ decode 0x02000000 = .ok .decode ∧
    decode 0x03000000 = .ok .encode ∧ decode 0x040C0000 = .ok (.wrf 12) ∧
    decode 0x05050000 = .ok (.rdf 5) ∧ decode 0x0600FFFF = .ok (.setlen 65535) := by decide

theorem test_decode_primitive_codec :
    decode 0x100A0200 = .ok (.stu 10 2) ∧ decode 0x11341000 = .ok (.ldu 52 16) ∧
    decode 0x12430000 = .ok (.lds8 67) ∧ decode 0x130C0403 = .ok (.stb 12 4 3) ∧
    decode 0x14400400 = .ok (.ldb 64 4) := by decide

theorem test_decode_timestamp_codec :
    decode 0x20280000 = .ok (.tsenc 40) ∧ decode 0x213C0000 = .ok (.tsdec 60) ∧
    decode 0x22000000 = .ok .u2n ∧ decode 0x23000000 = .ok .n2u := by decide

theorem test_decode_fixed_point_codec :
    decode 0x30000000 = .ok .qenc ∧ decode 0x31000000 = .ok .qdec := by decide

/-- A bit of each field on its own reaches that field and no other (R71, R72). -/
theorem test_decode_single_bits :
    decode 0x13800000 = .ok (.stb 128 0 0) ∧ decode 0x13010000 = .ok (.stb 1 0 0) ∧
    decode 0x13008000 = .ok (.stb 0 128 0) ∧ decode 0x13000100 = .ok (.stb 0 1 0) ∧
    decode 0x13000080 = .ok (.stb 0 0 128) ∧ decode 0x13000001 = .ok (.stb 0 0 1) ∧
    decode 0x06008000 = .ok (.setlen 32768) ∧ decode 0x06000001 = .ok (.setlen 1) := by decide

/-- T84, T85, T86: unassigned opcodes. -/
theorem test_decode_unassigned :
    [0x00000000, 0xFFFFFFFF, 0x07000000, 0x0F000000, 0x15000000, 0x1F000000, 0x24000000, 0x2F000000,
      0x32000000].map decode = List.replicate 9 (.error .unassignedOpcode) := by decide

/-- T87 to T91, T94 to T96: fields that must be zero. -/
theorem test_decode_nonzero_fields :
    [0x02010000, 0x03000001, 0x06010030, 0x11000101, 0x22000100, 0x04000100, 0x0200FF00,
      0x11FF1101].map decode = List.replicate 8 (.error .nonzeroField) := by decide

theorem test_encode_words :
    encode (.stu 4 4) = 0x10040400 ∧ encode (.stb 12 4 3) = 0x130C0403 ∧
    encode (.setlen 68) = 0x06000044 ∧ encode (.ldu 52 17) = 0x11341100 := by decide

theorem test_decodeTableWord :
    decodeTableWord 32 0x10040400 = some (.stu 4 4) ∧ decodeTableWord 32 0x02010000 = none := by decide

/-- R82: the pseudo-commands; the tag "GPS" is P3 step 8, the empty tag is four zero bytes. -/
theorem test_pseudo :
    pseudoLdu8 1 = .ldu 1 1 ∧ pseudoStu8 3 = .stu 3 1 ∧
    pseudoWrtag [0x47, 0x50, 0x53] = some (.wrf 8, 0x147505300) ∧
    pseudoWrtag [] = some (.wrf 8, 0x100000000) := by decide

/-- R81: `STB 12, 4, 3` and `SETLEN 68` as written lines; 256 fits no field. -/
theorem test_assemble :
    Op.assemble .stb [12, 4, 3] = some (.stb 12 4 3) ∧ Op.assemble .setlen [68] = some (.setlen 68) ∧
    Op.assemble .stu [256, 1] = none ∧ Op.assemble .decode [0] = none := by decide

/-- T74, T20, V4 as written lines: a register name, a quoted string, a negative decimal; a register name is no
offset (R81). -/
theorem test_lines :
    Line.input ⟨.wrf, [.register .mode], some (.integer 0x10B)⟩ = some (.command 0x04020000 0x10B) ∧
    Line.input ⟨.stb, [.number 12, .number 4, .number 3], some (.text [0x47, 0x50, 0x53])⟩ =
      some (.command 0x130C0403 0x475053) ∧
    Line.input ⟨.wrf, [.register .precision], some (.integer (-20))⟩ = some (.command 0x04050000 0xEC) ∧
    Line.input ⟨.lds8, [.register .mode], none⟩ = none := by decide

/-- P3 steps 15 to 19: reading out an authenticated message. -/
theorem test_readOutMessage :
    readOutMessage true = [.command 0x14001000 0, .command 0x14101000 0, .command 0x14201000 0,
      .command 0x14301000 0, .command 0x14400400 0] := by decide

/-- P2 steps 1 to 5: supplying the 48 bytes of a server's reply. -/
theorem test_supplyDatagram :
    supplyDatagram [0x24, 0x02, 0x06, 0xEC, 0x00, 0x00, 0x03, 0x12, 0x00, 0x01, 0x04, 0x00, 0xC0, 0xA8, 0x01, 0x01,
      0xE9, 0x3C, 0x7F, 0x00, 0x00, 0x00, 0x00, 0x00, 0xE9, 0x3C, 0x7F, 0x0A, 0x80, 0x00, 0x00, 0x00,
      0xE9, 0x3C, 0x7F, 0x0A, 0x90, 0x00, 0x00, 0x00, 0xE9, 0x3C, 0x7F, 0x0A, 0x90, 0x41, 0x89, 0x38] =
      [.command 0x10001000 0x240206EC0000031200010400C0A80101,
        .command 0x10101000 0xE93C7F0000000000E93C7F0A80000000,
        .command 0x10201000 0xE93C7F0A90000000E93C7F0A90418938,
        .command 0x06000030 0, .command 0x02000000 0] := by decide

/-! ## Steps -/

/-- `NEW 1` as the first command after reset (P3 step 1). -/
theorem test_step_first_word :
    statusAfter (step (State.reset.withFetchWord 32 0x01010000)) = some 0xF1 := by decide

/-- T84: the all-zero word from reset. -/
theorem test_step_illegal : statusAfter (step (presenting 0x00000000)) = some 0xFC := by decide

/-- T95: an illegal word with a wrong length too: the word wins. -/
theorem test_step_priority :
    statusAfter (step ((presenting 0x0200FF00).setBuflen 47)) = some 0xFC := by decide

/-! ## Message codec -/

/-- T83: `NEW` does not clear `STICKY`. -/
theorem test_new_keeps_sticky :
    statusAfter (exec (.new 1) (State.reset.setSticky true)) = some 0xF9 := by decide

/-- P4 step 10: `NEW 2` changes nothing but the error state. -/
theorem test_new_range :
    statusAfter (exec (.new 2) ((State.reset.setSticky true).setAuth true)) = some 0xFF := by decide

/-- P4 step 1: any length is stored. -/
theorem test_setlen : (after (exec (.setlen 47) State.reset)).map (·.buflen) = some 47 := by decide

/-- R20: the registers by index, and no register 15. -/
theorem test_register_indices :
    (List.range 16).map FieldReg.ofIndex =
      [some .li, some .vn, some .mode, some .stratum, some .poll, some .precision, some .rootDelay,
        some .rootDisp, some .refId, some .refTs, some .orgTs, some .rcvTs, some .xmtTs, some .keyId,
        some .digest, none] := by decide

/-- T74: `WRF MODE` masks to the register. -/
theorem test_wrf_masks : (after (exec (.wrf 2) (withOpa 0x10B))).map (·.f.mode) = some 0x0B := by decide

/-- P3 step 8: `WRF REFID` keeps 33 bits. -/
theorem test_wrf_refid :
    (after (exec (.wrf 8) (withOpa 0x3147505300))).map (·.f.refId) = some 0x147505300 := by decide

/-- V4: `PRECISION` reads as -20. -/
theorem test_rdf_signed :
    resAfter (exec (.rdf 5) (State.reset.setF (Fields.zero.set .precision 0xEC))) =
      some 0xFFFFFFFFFFFFFFFFFFFFFFFFFFFFFFEC := by decide

/-- R154: `KEYID` reads as unsigned (the pattern of T80). -/
theorem test_rdf_unsigned :
    resAfter (exec (.rdf 13) (State.reset.setF (Fields.zero.set .keyId 0xFFFFFFFF))) =
      some 0xFFFFFFFF := by decide

/-- V3, V4, V5, P2: byte 0 `E3`, a byte each of the signed fields, and the delay word `00 00 03 12`. -/
theorem test_decode_header :
    (after (exec .decode (holding 0 [0xE3, 0x02, 0xFA, 0xEC, 0x00, 0x00, 0x03, 0x12]))).map
      (fun t => (t.f.li, t.f.vn, t.f.mode, t.f.stratum, t.f.poll, t.f.precision, t.f.rootDelay)) =
      some (3, 4, 3, 2, 0xFA, 0xEC, 0x3120000) := by decide

/-- P2 step 18 and T82: the transmit time, and offset 48 not read when `BUFLEN` is 48. -/
theorem test_decode_timestamp :
    (after (exec .decode (holding 40 [0xE9, 0x3C, 0x7F, 0x0A, 0x90, 0x41, 0x89, 0x38, 0xFF, 0xFF]))).map
      (fun t => (t.f.xmtTs, t.f.keyId, t.status)) = some (0x38F14504143, 0, 0x70) := by decide

/-- T74, T76, T78: byte 0 masked, `POLL` -6, `ROOTDELAY` -1.0. -/
theorem test_encode_header :
    bytesAfter (exec .encode (State.reset.setF
      ((((Fields.zero.set .li 7).set .vn 9).set .mode 0x0B).set .poll 0xFA |>.set .rootDelay
        0xFFFFFFFF00000000))) 0 8 =
      some [0xCB, 0x00, 0xFA, 0x00, 0xFF, 0xFF, 0x00, 0x00] := by decide

/-- P3 step 14: the transmit time and the key of an authenticated message. -/
theorem test_encode_authenticated :
    bytesAfter (exec .encode ((State.reset.setAuth true).setF
      ((Fields.zero.set .rcvTs 0x38E21E38B83).set .xmtTs 0x38E21E38C00 |>.set .keyId 0xDEADBEEF |>.set
        .digest 0x000102030405060708090A0B0C0D0E0F))) 32 36 =
      some [0xE8, 0xFE, 0x6F, 0x7F, 0xE0, 0, 0, 0, 0xE8, 0xFE, 0x6F, 0x80, 0, 0, 0, 0,
        0xDE, 0xAD, 0xBE, 0xEF, 0x00, 0x01, 0x02, 0x03, 0x04, 0x05, 0x06, 0x07, 0x08, 0x09, 0x0A, 0x0B,
        0x0C, 0x0D, 0x0E, 0x0F] := by decide

/-! ## Primitive codec -/

/-- T3: the low 16 bits, most significant byte first, and no byte beside them. -/
theorem test_stu_truncates :
    bytesAfter (exec (.stu 10 2) (withOpa 0xABCDEF)) 9 4 = some [0x00, 0xCD, 0xEF, 0x00] := by decide

/-- T7: refused as a whole. -/
theorem test_stu_refused :
    (after (exec (.stu 53 16) (withOpa 0xFF))).map (fun t => (t.buf, t.err, t.sticky)) =
      some ([], .operandRange, true) := by decide

/-- T16: four bytes `FF` are 4 294 967 295. -/
theorem test_ldu_unsigned :
    resAfter (exec (.ldu 0 4) (holding 0 [0xFF, 0xFF, 0xFF, 0xFF])) = some 0xFFFFFFFF := by decide

/-- T14: unaligned, the first byte most significant. -/
theorem test_ldu_unaligned :
    resAfter (exec (.ldu 5 3) (holding 4 [0x00, 0x00, 0x03, 0x12])) = some 0x000312 := by decide

/-- T17: `80` is -128. -/
theorem test_lds8_negative :
    resAfter (exec (.lds8 9) (holding 9 [0x80])) = some 0xFFFFFFFFFFFFFFFFFFFFFFFFFFFFFF80 := by decide

/-- T17: `7F` is 127. -/
theorem test_lds8_positive : resAfter (exec (.lds8 9) (holding 9 [0x7F])) = some 0x7F := by decide

/-- T24: three text bytes over older bytes, the bits above them ignored, the fourth byte zero. -/
theorem test_stb_pads :
    bytesAfter (exec (.stb 12 4 3) (holding 11 [1, 2, 3, 4, 5, 6] 0xAA475053)) 11 6 =
      some [0x01, 0x47, 0x50, 0x53, 0x00, 0x06] := by decide

/-- T25: more text than field. -/
theorem test_stb_refused : statusAfter (exec (.stb 0 2 3) (withOpa 0x414243)) = some 0xFE := by decide

/-- T27: padding is not stripped. -/
theorem test_ldb :
    resAfter (exec (.ldb 12 4) (holding 12 [0x47, 0x50, 0x53, 0x00])) = some 0x47505300 := by decide

/-! ## Timestamp codec -/

/-- T31: 1 ms. -/
theorem test_tsenc_one :
    bytesAfter (exec (.tsenc 40) (withOpa 1)) 40 8 = some [0, 0, 0, 0, 0x00, 0x41, 0x89, 0x37] := by decide

/-- T46: -1001 ms, floored. -/
theorem test_tsenc_negative :
    bytesAfter (exec (.tsenc 40) (withOpa 0xFFFFFFFFFFFFFC17)) 40 8 =
      some [0xFF, 0xFF, 0xFF, 0xFE, 0xFF, 0xBE, 0x76, 0xC8] := by decide

/-- T57: 3 913 056 010 563. -/
theorem test_tsdec :
    resAfter (exec (.tsdec 40) (holding 40 [0xE9, 0x3C, 0x7F, 0x0A, 0x90, 0x41, 0x89, 0x38])) =
      some 3913056010563 := by decide

/-- T53: the largest result. -/
theorem test_tsdec_largest :
    resAfter (exec (.tsdec 60) (holding 60 (List.replicate 8 0xFF))) = some 4294967295999 := by decide

/-- T58h: one second before the NTP epoch. -/
theorem test_u2n_negative :
    resAfter (exec .u2n (withOpa 0xFFFFFFFF7C55817F)) = some 0xFFFFFFFFFFFFFFFFFFFFFFFFFFFFFC18 := by decide

/-- T58j: wrapped to 64 bits, then sign-extended. -/
theorem test_u2n_wraps :
    resAfter (exec .u2n (withOpa 0x20C49BA5C19F1A)) = some 0xFFFFFFFFFFFFFFFF80000201CE53A190 := by decide

/-- T59e: floored for a negative count. -/
theorem test_n2u_negative :
    resAfter (exec .n2u (withOpa 0xFFFFFFFFFFFFFFFF)) = some 0x00000000000003E7FFFFFFFF7C55817F := by decide

/-- T59h: the largest count. -/
theorem test_n2u_largest :
    resAfter (exec .n2u (withOpa 0x7FFFFFFFFFFFFFFF)) = some 0x00000000000003270020C49B2238D577 := by decide

/-! ## Fixed-point codec -/

/-- R143, row 2.5 * 2^-16: an exact half goes away from zero. -/
theorem test_qenc_half : resAfter (exec .qenc (withOpa 0x28000)) = some 3 := by decide

/-- R143, row -2^-17: and so for a negative value; the bits above 63 are ignored. -/
theorem test_qenc_negative_half :
    resAfter (exec .qenc (withOpa 0x1FFFFFFFFFFFF8000)) = some 0xFFFFFFFF := by decide

/-- T73h: unsigned. -/
theorem test_qdec_unsigned : resAfter (exec .qdec (withOpa 0xFFFF0000)) = some 0xFFFF00000000 := by decide

/-- T73j: the bits above 31 are ignored. -/
theorem test_qdec_ignores : resAfter (exec .qdec (withOpa 0x100000312)) = some 0x03120000 := by decide

/-! ## Witnesses: every statement's hypotheses are met, each clause at a boundary of its range -/

/-- The command is performed in `s` and ends with the error code `e`. -/
def EndsWith (i : Instr) (s : State) (e : ErrCode) : Prop := ∃ t, exec i s = .next t ∧ t.err = e

/-- A state with one error recorded, a buffer that is not zero, and a length no message has. -/
def busy : State :=
  (((holding 0 [0xE3, 0x02, 0xFA]).setSticky true).setErr .operandRange).setBuflen 47

theorem witness_ResetInputRestoresResetState :
    (busy.setPending [.reset, .command 0x02000000 0]).pending = .reset :: [.command 0x02000000 0] := rfl

theorem witness_StepKeepsInvariant :
    (busy.setPending [.command 0x10341000 0xFF]).Inv ∧
    (after (step (busy.setPending [.command 0x10341000 0xFF]))).isSome ∧
    (busy.setPending [.reset]).Inv ∧ (after (step (busy.setPending [.reset]))).isSome ∧
    busy.Inv ∧ (after (step busy)).isSome := by decide

theorem witness_CommandCompletesOrOnlyRaises :
    (presenting 0x03000000 5).pending = .command 0x03000000 5 :: [] := rfl

theorem witness_StepRunsDecodedCommand :
    (presenting 0x13FFFFFF 5).pending = .command 0x13FFFFFF 5 :: [] ∧
    decode 0x13FFFFFF = .ok (.stb 255 255 255) := by decide

theorem witness_NoInputChangesNothing : busy.pending = [] := rfl

theorem witness_IllegalWordRaisesIllegalCommand :
    (presenting 0xFFFFFFFF).pending = .command 0xFFFFFFFF 0 :: [] ∧
    (∀ op : Op, op.code ≠ Word.opField 0xFFFFFFFF) ∧
    (presenting 0x02000001).pending = .command 0x02000001 0 :: [] ∧
    (∃ op : Op, op.code = Word.opField 0x02000001 ∧ 0x02000001 &&& op.mask ≠ op.matchWord) :=
  ⟨rfl, fun op => by cases op <;> decide, rfl, .decode, by decide⟩

theorem witness_FirstErrorThatAppliesIsRaised :
    decode 0x11FF1101 = .error .nonzeroField ∧
    (decode 0x11FF1100 = .ok (.ldu 255 17) ∧ Instr.wellFormed (.ldu 255 17) = false) ∧
    (decode 0x02000000 = .ok .decode ∧ ¬ busy.lengthOk) ∧
    (decode 0x02000000 = .ok .decode ∧ Instr.wellFormed .decode = true ∧ State.reset.lengthOk) ∧
    (decode 0x11341000 = .ok (.ldu 52 16) ∧ Instr.wellFormed (.ldu 52 16) = true) := by decide

/-- T7, T9, T10, T18, T19, T25 and the edges of `TSENC` and `TSDEC`: both sides of each range. -/
theorem witness_OperandRangeRaisedExactlyOutOfRange :
    (RaisesRange (.new 2) busy ∧ EndsWith (.new 1) busy .ok) ∧
    (RaisesRange (.wrf 15) busy ∧ EndsWith (.wrf 14) busy .ok) ∧
    (RaisesRange (.rdf 15) busy ∧ EndsWith (.rdf 14) busy .ok) ∧
    (RaisesRange (.stu 0 17) busy ∧ RaisesRange (.stu 53 16) busy ∧ EndsWith (.stu 52 16) busy .ok) ∧
    (RaisesRange (.ldu 69 0) busy ∧ EndsWith (.ldu 68 0) busy .ok) ∧
    (RaisesRange (.ldb 65 4) busy ∧ EndsWith (.ldb 64 4) busy .ok) ∧
    (RaisesRange (.stb 0 2 3) busy ∧ EndsWith (.stb 0 2 2) busy .ok) ∧
    (RaisesRange (.lds8 68) busy ∧ EndsWith (.lds8 67) busy .ok) ∧
    (RaisesRange (.tsenc 61) busy ∧ EndsWith (.tsenc 60) busy .ok) ∧
    (RaisesRange (.tsdec 61) busy ∧ EndsWith (.tsdec 60) busy .ok) :=
  ⟨⟨rfl, _, rfl, rfl⟩, ⟨rfl, _, rfl, rfl⟩, ⟨rfl, _, rfl, rfl⟩, ⟨rfl, rfl, _, rfl, rfl⟩,
    ⟨rfl, _, rfl, rfl⟩, ⟨rfl, _, rfl, rfl⟩, ⟨rfl, _, rfl, rfl⟩, ⟨rfl, _, rfl, rfl⟩,
    ⟨rfl, _, rfl, rfl⟩, ⟨rfl, _, rfl, rfl⟩⟩

theorem witness_AccessPastBufferRefusedWhole :
    (BitVec.toNat (53 : BitVec 8) + BitVec.toNat (16 : BitVec 8) > 68) ∧
    (BitVec.toNat (255 : BitVec 8) + BitVec.toNat (255 : BitVec 8) > 68) ∧
    (BitVec.toNat (68 : BitVec 8) + 1 > 68) ∧ (BitVec.toNat (61 : BitVec 8) + 8 > 68) := by decide

theorem witness_LengthGateAcceptsOnly48And68 :
    (State.reset.setBuflen 48).lengthOk ∧ (State.reset.setBuflen 68).lengthOk ∧
    ((State.reset.setBuflen 47).buflen ≠ 48 ∧ (State.reset.setBuflen 47).buflen ≠ 68) ∧
    ((State.reset.setBuflen 69).buflen ≠ 48 ∧ (State.reset.setBuflen 69).buflen ≠ 68) ∧
    ((State.reset.setBuflen 65535).buflen ≠ 48 ∧ (State.reset.setBuflen 65535).buflen ≠ 68) := by decide

theorem witness_ErrorCodesComeOnlyFromTheirCommands :
    EndsWith .decode busy .invalidLength ∧ EndsWith (.stu 53 16) busy .operandRange ∧
    EndsWith .encode busy .ok := ⟨⟨_, rfl, rfl⟩, ⟨_, rfl, rfl⟩, ⟨_, rfl, rfl⟩⟩

theorem witness_OtherInputsHaveNoEffect :
    (busy.setPending [.command 0x05050000 7, .reset]).pending = .command 0x05050000 7 :: [.reset] ∧
    (after (step (busy.setPending [.command 0x05050000 7, .reset]))).isSome := by decide

/-- T2, T24, T73j: operands that differ only above the bits read. -/
theorem witness_UnreadOperandBitsAreIgnored :
    (0x1234 % 2 ^ operandBits (.stu 0 1) = (withOpa 0x34).opa.toNat % 2 ^ operandBits (.stu 0 1)) ∧
    (0xAA475053 % 2 ^ operandBits (.stb 12 4 3) =
      (withOpa 0x475053).opa.toNat % 2 ^ operandBits (.stb 12 4 3)) ∧
    (0x100000312 % 2 ^ operandBits .qdec = (withOpa 0x312).opa.toNat % 2 ^ operandBits .qdec) ∧
    (7 % 2 ^ operandBits .decode = (withOpa 0).opa.toNat % 2 ^ operandBits .decode) ∧
    EndsWith (.stu 0 1) (withOpa 0x34) .ok ∧ EndsWith .qdec (withOpa 0x312) .ok :=
  ⟨by decide, by decide, by decide, by decide, ⟨_, rfl, rfl⟩, ⟨_, rfl, rfl⟩⟩

theorem witness_StickySetByErrorsNeverClearedByCommands :
    (presenting 0x00000000).pending = .command 0x00000000 0 :: [] ∧
    (after (step (presenting 0x00000000))).isSome ∧
    (busy.setPending [.command 0x05000000 0]).pending = .command 0x05000000 0 :: [] ∧
    (after (step (busy.setPending [.command 0x05000000 0]))).isSome := by decide

theorem witness_EveryWordIsOneCommandOrIllegal :
    decode 0xFFFFFFFF = .error .unassignedOpcode ∧ decode 0x06010030 = .error .nonzeroField := by decide

theorem witness_PseudoCommandsAreTheirExpansions :
    ([] : List Byte).length ≤ 4 ∧ ([0x4C, 0x4F, 0x43, 0x4C] : List Byte).length ≤ 4 := by decide

theorem witness_AuthWrittenOnlyByNewAndDecode :
    EndsWith (.new 1) busy .ok ∧ EndsWith .decode State.reset .ok ∧
    EndsWith .decode busy .invalidLength ∧ EndsWith .encode busy .ok :=
  ⟨⟨_, rfl, rfl⟩, ⟨_, rfl, rfl⟩, ⟨_, rfl, rfl⟩, ⟨_, rfl, rfl⟩⟩

theorem witness_BuflenWrittenOnlyBySetlenNewEncode :
    EndsWith (.setlen 65535) busy .ok ∧ EndsWith (.new 0) busy .ok ∧ EndsWith .encode busy .ok ∧
    EndsWith .decode State.reset .ok ∧ EndsWith (.new 2) busy .operandRange :=
  ⟨⟨_, rfl, rfl⟩, ⟨_, rfl, rfl⟩, ⟨_, rfl, rfl⟩, ⟨_, rfl, rfl⟩, ⟨_, rfl, rfl⟩⟩

theorem witness_ResultWrittenOnlyByValueCommands :
    (EndsWith (.stb 12 4 3) busy .ok ∧ (Instr.stb 12 4 3).op = .stb) ∧
    EndsWith (.ldu 0 17) busy .operandRange := ⟨⟨⟨_, rfl, rfl⟩, rfl⟩, ⟨_, rfl, rfl⟩⟩

theorem witness_BufferWrittenOnlyByStoresEncodeNew :
    EndsWith (.ldb 0 16) busy .ok ∧ EndsWith (.stu 53 16) busy .operandRange :=
  ⟨⟨_, rfl, rfl⟩, ⟨_, rfl, rfl⟩⟩

theorem witness_FieldsWrittenOnlyByNewWrfDecode :
    EndsWith (.tsdec 60) busy .ok ∧ EndsWith .decode busy .invalidLength :=
  ⟨⟨_, rfl, rfl⟩, ⟨_, rfl, rfl⟩⟩

theorem witness_UnsetFlagsFollowTimestampRegisters :
    State.reset.lengthOk ∧ (State.reset.setBuflen 68).lengthOk := by decide

/-- For the statements about accesses: the last offset, the widest access, and the empty one at the end. -/
theorem witness_accesses :
    busy.buf.wf = true ∧
    (BitVec.toNat (16 : BitVec 8) ≤ 16 ∧ BitVec.toNat (52 : BitVec 8) + BitVec.toNat (16 : BitVec 8) ≤ 68) ∧
    (BitVec.toNat (0 : BitVec 8) ≤ 16 ∧ BitVec.toNat (68 : BitVec 8) + BitVec.toNat (0 : BitVec 8) ≤ 68) := by
  decide

theorem witness_StuStoresBigEndian :
    busy.buf.wf = true ∧ BitVec.toNat (16 : BitVec 8) ≤ 16 ∧
    BitVec.toNat (52 : BitVec 8) + BitVec.toNat (16 : BitVec 8) ≤ 68 ∧
    15 < BitVec.toNat (16 : BitVec 8) := by decide

theorem witness_LduLoadsUnsignedBigEndian :
    BitVec.toNat (16 : BitVec 8) ≤ 16 ∧
    BitVec.toNat (52 : BitVec 8) + BitVec.toNat (16 : BitVec 8) ≤ 68 := by decide

theorem witness_Lds8LoadsSignedByte : BitVec.toNat (67 : BitVec 8) ≤ 67 := by decide

theorem witness_StbStoresTextLeftJustified :
    busy.buf.wf = true ∧ BitVec.toNat (16 : BitVec 8) ≤ 16 ∧
    BitVec.toNat (52 : BitVec 8) + BitVec.toNat (16 : BitVec 8) ≤ 68 ∧
    BitVec.toNat (16 : BitVec 8) ≤ BitVec.toNat (16 : BitVec 8) ∧
    BitVec.toNat (0 : BitVec 8) ≤ BitVec.toNat (16 : BitVec 8) := by decide

theorem witness_LdbLoadsByteString :
    BitVec.toNat (4 : BitVec 8) ≤ 16 ∧
    BitVec.toNat (64 : BitVec 8) + BitVec.toNat (4 : BitVec 8) ≤ 68 ∧
    3 < BitVec.toNat (4 : BitVec 8) := by decide

theorem witness_LduAfterStuReturnsTruncatedOperand :
    busy.buf.wf = true ∧ BitVec.toNat (1 : BitVec 8) ≤ 16 ∧
    BitVec.toNat (67 : BitVec 8) + BitVec.toNat (1 : BitVec 8) ≤ 68 := by decide

theorem witness_PrimitiveCommandsReadOnlyWhatTheyName :
    (BitVec.toNat (1 : BitVec 8) ≤ 16 ∧ BitVec.toNat (67 : BitVec 8) + BitVec.toNat (1 : BitVec 8) ≤ 68) ∧
    (∀ x, BitVec.toNat (67 : BitVec 8) ≤ x →
      x < BitVec.toNat (67 : BitVec 8) + BitVec.toNat (1 : BitVec 8) →
      busy.buf.read x = State.reset.buf.read x) ∧
    busy.opa = State.reset.opa ∧ busy.buf.wf = true ∧ State.reset.buf.wf = true ∧
    Instr.lds8 67 ∈ (if 1 ≤ BitVec.toNat (1 : BitVec 8) then [Instr.lds8 67] else []) ∧
    Instr.stb 67 1 1 ∈
      (if BitVec.toNat (1 : BitVec 8) ≤ BitVec.toNat (1 : BitVec 8) then [Instr.stb 67 1 1] else []) := by
  refine ⟨by decide, fun x h1 h2 => ?_, by decide⟩
  have : x = 67 := by
    have e1 : BitVec.toNat (67 : BitVec 8) = 67 := by decide
    have e2 : BitVec.toNat (1 : BitVec 8) = 1 := by decide
    omega
  subst this
  decide

/-- T50, T51, T52: fractions at both ends of the interval of 0, 1 and 999 ms. -/
theorem witness_TimestampDecodeFloorsFraction :
    ([0, 0, 0, 0, 0x00, 0x41, 0x89, 0x37] : List Byte).length = 8 ∧
    tsDec [0, 0, 0, 0, 0x00, 0x41, 0x89, 0x37] % 1000 = 0 ∧
    tsDec [0, 0, 0, 0, 0x00, 0x41, 0x89, 0x38] % 1000 = 1 ∧
    tsDec [0, 0, 0, 0, 0xFF, 0xFF, 0xFF, 0xFF] % 1000 = 999 := by decide

theorem witness_TsdecDecodesTimestamp : BitVec.toNat (60 : BitVec 8) ≤ 60 := by decide

theorem witness_TsencEncodesTimestamp :
    busy.buf.wf = true ∧ BitVec.toNat (60 : BitVec 8) ≤ 60 := by decide

/-- T58i: the largest operand with an exact result, and the smallest (R124). -/
theorem witness_U2nShiftsToNtpMilliseconds :
    (BitVec.setWidth 64 (withOpa 0x20C49B2238D577).opa).toInt = 9223369827865975 ∧
    (BitVec.setWidth 64 (withOpa 0xFFDF3B63D6722D89).opa).toInt = -9223374245843575 := by decide

/-- Remainders 0, 125, 1 and 999, and the ends of the range. -/
theorem witness_TimestampWireTripLosesAtMostOneMillisecond :
    busy.buf.wf = true ∧ BitVec.toNat (60 : BitVec 8) ≤ 60 ∧
    (∀ ms ∈ [0, 1, 125, 999, 1000, 4294967295999],
      ms < 4294967296000 ∧ (withOpa (BitVec.ofNat 128 ms)).opa = BitVec.ofNat 128 ms) := by decide

theorem witness_TimestampReencodingLowersFraction :
    (holding 60 [0xE9, 0x3C, 0x7F, 0x0A, 0x90, 0x41, 0x89, 0x38]).buf.wf = true ∧
    BitVec.toNat (60 : BitVec 8) ≤ 60 ∧ beDec (busy.buf.readBytes 64 4) = 0 := by decide

/-- The seconds a pattern stands for, as a test writes them. -/
theorem seconds_of (x : Operand) (n : ℤ) (h : (BitVec.setWidth 64 x).toInt = n) :
    seconds ((withOpa x).opa.setWidth 64) = (n : ℚ) / 2 ^ 32 := by
  show ((BitVec.setWidth 64 x).toInt : ℚ) / 2 ^ 32 = _
  rw [h]

/-- 0, a value that is no multiple of 2^-16, and the value that rounds to 65536 (R143). -/
theorem witness_FixedPointRoundTrips :
    (0 ≤ seconds ((withOpa 0).opa.setWidth 64) ∧ seconds ((withOpa 0).opa.setWidth 64) < 65536) ∧
    (0 ≤ seconds ((withOpa 0x3126E98).opa.setWidth 64) ∧
      seconds ((withOpa 0x3126E98).opa.setWidth 64) < 65536) ∧
    (0 ≤ seconds ((withOpa 0xFFFFFFFF8000).opa.setWidth 64) ∧
      seconds ((withOpa 0xFFFFFFFF8000).opa.setWidth 64) < 65536 ∧
      roundHalfAway (seconds ((withOpa 0xFFFFFFFF8000).opa.setWidth 64) * 65536) = 65536 * 65536) := by
  rw [seconds_of 0 0 (by decide), seconds_of 0x3126E98 0x3126E98 (by decide),
    seconds_of 0xFFFFFFFF8000 0xFFFFFFFF8000 (by decide), roundHalfAway_eq_qRound]
  refine ⟨by norm_num, by norm_num, by norm_num, by norm_num, by decide⟩

/-- -1.0, and the lower end -32768.0 (R143, R144). -/
theorem witness_NegativeSecondsComeBackPlus65536 :
    (seconds ((withOpa 0xFFFFFFFF00000000).opa.setWidth 64) = ((-65536 : ℤ) : ℚ) / 65536 ∧
      (-32768 * 65536 : ℤ) ≤ -65536 ∧ (-65536 : ℤ) < 0) ∧
    seconds ((withOpa 0xFFFF800000000000).opa.setWidth 64) = ((-32768 * 65536 : ℤ) : ℚ) / 65536 := by
  rw [seconds_of 0xFFFFFFFF00000000 (-4294967296) (by decide),
    seconds_of 0xFFFF800000000000 (-140737488355328) (by decide)]
  norm_num

theorem witness_NewConstructsFreshInstance : BitVec.toNat (1 : BitVec 8) ≤ 1 := by decide

theorem witness_WrfWritesOneRegister :
    BitVec.toNat (14 : BitVec 8) = FieldReg.digest.index ∧ FieldReg.li ≠ FieldReg.digest ∧
    BitVec.toNat (0 : BitVec 8) = FieldReg.li.index := by decide

theorem witness_RdfShowsRegisterByKind :
    (BitVec.toNat (4 : BitVec 8) = FieldReg.poll.index ∧ FieldReg.poll.index ∈ [4, 5, 6, 7, 9, 10, 11, 12]) ∧
    (BitVec.toNat (8 : BitVec 8) = FieldReg.refId.index ∧
      FieldReg.refId.index ∉ [4, 5, 6, 7, 9, 10, 11, 12]) := by decide

theorem witness_DecodeReplacesAllFieldsFromLayout :
    (State.reset.setBuflen 48).buflen = 48 ∧ (State.reset.setBuflen 68).buflen = 68 := by decide

theorem witness_EncodeWritesLayoutFromFields :
    (State.reset.setAuth true).auth = true ∧ State.reset.auth = false ∧ 48 ≤ 67 ∧ 68 ≤ 68 := by decide

/-- The tag "GPS" and the address of the same bytes. -/
theorem witness_ReferenceVariantNeverReachesWire :
    BitVec.toNat (0x147505300 : BitVec 33) % 2 ^ 32 = BitVec.toNat (0x047505300 : BitVec 33) % 2 ^ 32 ∧
    (0x147505300 : BitVec 33) ≠ 0x047505300 := by decide

theorem witness_EncodeThenDecodeRoundTrip :
    (0 ≤ (Fields.zero.get .xmtTs).toInt ∧ (Fields.zero.get .xmtTs).toInt < 4294967296000) ∧
    (0 ≤ ((Fields.zero.set .xmtTs 0x3E7FFFFFFFF).get .xmtTs).toInt ∧
      ((Fields.zero.set .xmtTs 0x3E7FFFFFFFF).get .xmtTs).toInt < 4294967296000) ∧
    (State.reset.setAuth true).auth = true ∧ State.reset.auth = false := by decide

theorem witness_DecodeThenEncodeRoundTrip :
    (State.reset.setBuflen 68).lengthOk ∧ 67 < (State.reset.setBuflen 68).buflen.toNat ∧
    ¬ (16 ≤ 67 ∧ 67 < 48 ∧ 4 ≤ 67 % 8) ∧ ¬ (16 ≤ 47 - 4 ∧ 47 - 4 < 48 ∧ 4 ≤ (47 - 4) % 8) := by decide

/-- Two buffers that differ only at offset 48. -/
theorem witness_PlainVariantIgnoresAuthentication :
    State.reset.buflen = 48 ∧ (∀ x, x < 48 → Memory.read [(48, 0xFF)] x = State.reset.buf.read x) ∧
    State.reset.auth = false := by
  refine ⟨rfl, fun x hx => ?_, rfl⟩
  show (if 48 = x then (0xFF : Byte) else 0) = 0
  rw [if_neg (by omega)]

theorem witness_DecodeAgreesWithPrimitiveCommands :
    (State.reset.setBuflen 48).lengthOk ∧ (State.reset.setBuflen 68).lengthOk ∧
    (State.reset.setBuflen 68).buflen = 68 := by decide

theorem witness_NewComparedWithReset :
    BitVec.toNat (0 : BitVec 8) ≤ 1 ∧ BitVec.toNat (1 : BitVec 8) ≤ 1 := by decide

theorem witness_ClientQueryScenario :
    (busy.setPending (buildMessage false [(.vn, 3), (.mode, 3)] ++ [Machine.present .decode 0])).pending =
      buildMessage false [(.vn, 3), (.mode, 3)] ++ [Machine.present .decode 0] := rfl

/-- Datagrams of 48, 68 and 47 bytes. -/
theorem witness_SuppliedDatagramIsDecoded :
    busy.buf.wf = true ∧
    (∀ n ∈ [0, 47, 48, 68, 69], (busy.setPending (supplyDatagram (List.replicate n 0xFF))).pending =
      supplyDatagram (List.replicate n 0xFF)) ∧
    (List.replicate 48 (0xFF : Byte)).length = 48 ∧ (List.replicate 68 (0xFF : Byte)).length = 68 ∧
    (List.replicate 47 (0xFF : Byte)).length ≠ 48 ∧ (List.replicate 47 (0xFF : Byte)).length ≠ 68 := by
  refine ⟨by decide, fun _ _ => rfl, by decide⟩

end Sys2Proof.Tests
end

section
/-! The inputs still to present are carried through every command unread (R17, R222), so what a command does
depends on the block, the word and the operand alone. -/

namespace Sys2Proof.Machine

/-- Presenting a command overwrites the operand and the inputs left at the port before. -/
theorem State.present_of_other_port (s : State) (opa x : Operand) (l rest : List HostInput) :
    ((s.setOpa x).setPending l).present opa rest = s.present opa rest := rfl

/-- Replacing the later inputs after presenting a command is presenting it with those inputs to follow. -/
theorem State.present_setPending (s : State) (opa : Operand) (rest rest' : List HostInput) :
    (s.present opa rest).setPending rest' = s.present opa rest' := rfl

section
variable {s t u : State} (l : List HostInput)

theorem complete_setPending (h : complete s = .next u) :
    complete (s.setPending l) = .next (u.setPending l) := by
  obtain rfl := (next_inj _ _).1 h
  rfl

theorem raise_setPending {e : ErrCode} (h : raise e s = .next u) :
    raise e (s.setPending l) = .next (u.setPending l) := by
  obtain rfl := (next_inj _ _).1 h
  rfl

theorem inRange_setPending {ok : Bool} (h : inRange ok t s = .next u) :
    inRange ok (t.setPending l) (s.setPending l) = .next (u.setPending l) := by
  cases ok with
  | true => exact complete_setPending l h
  | false => exact raise_setPending l h

theorem execWrf_setPending {a : BitVec 8} (h : execWrf a s = .next u) :
    execWrf a (s.setPending l) = .next (u.setPending l) := by
  cases hr : FieldReg.ofIndex a.toNat with
  | none => simp only [execWrf, hr] at h ⊢; exact raise_setPending l h
  | some r => simp only [execWrf, hr] at h ⊢; exact complete_setPending l h

theorem execRdf_setPending {a : BitVec 8} (h : execRdf a s = .next u) :
    execRdf a (s.setPending l) = .next (u.setPending l) := by
  cases hr : FieldReg.ofIndex a.toNat with
  | none => simp only [execRdf, hr] at h ⊢; exact raise_setPending l h
  | some r => simp only [execRdf, hr] at h ⊢; exact complete_setPending l h

theorem execDecode_setPending (h : execDecode s = .next u) :
    execDecode (s.setPending l) = .next (u.setPending l) := by
  unfold execDecode at h ⊢
  rw [State.setPending_buflen]
  split at h
  case isTrue hlen =>
    rw [if_pos hlen]
    exact complete_setPending l h
  case isFalse hlen =>
    rw [if_neg hlen]
    exact raise_setPending l h

/-- A command carries the inputs still to present through, and nothing it does depends on them. -/
theorem exec_setPending {i : Instr} (h : exec i s = .next u) :
    exec i (s.setPending l) = .next (u.setPending l) := by
  cases i with
  | decode => exact execDecode_setPending l h
  | wrf a => exact execWrf_setPending l h
  | rdf a => exact execRdf_setPending l h
  | new a => exact inRange_setPending l h
  | stu a w => exact inRange_setPending l h
  | ldu a w => exact inRange_setPending l h
  | lds8 a => exact inRange_setPending l h
  | stb a w n => exact inRange_setPending l h
  | ldb a w => exact inRange_setPending l h
  | tsenc a => exact inRange_setPending l h
  | tsdec a => exact inRange_setPending l h
  | encode => exact complete_setPending l h
  | setlen imm16 => exact complete_setPending l h
  | u2n => exact complete_setPending l h
  | n2u => exact complete_setPending l h
  | qenc => exact complete_setPending l h
  | qdec => exact complete_setPending l h

theorem perform_setPending {cmd : Word} (h : perform cmd s = .next u) :
    perform cmd (s.setPending l) = .next (u.setPending l) := by
  cases hd : decode cmd with
  | ok i =>
    rw [perform_ok hd] at h ⊢
    exact exec_setPending l h
  | error e =>
    rw [perform_error hd] at h ⊢
    exact raise_setPending (e := .illegalCommand) l h

end

/-- Settles O15: both steps perform the word in the same block with the same operand, up to the inputs still to
present, which performing carries through. -/
theorem otherInputsHaveNoEffect : Obligations.OtherInputsHaveNoEffect := by
  unfold Obligations.OtherInputsHaveNoEffect
  intro s t cmd opa x rest rest' hp h
  rw [step_command hp] at h
  calc step ((s.setOpa x).setPending (.command cmd opa :: rest'))
    _ = perform cmd (((s.setOpa x).setPending (.command cmd opa :: rest')).present opa rest') :=
        step_command rfl
    _ = perform cmd ((s.present opa rest).setPending rest') := by
        rw [State.present_of_other_port, State.present_setPending]
    _ = .next (t.setPending rest') := perform_setPending rest' h

end Sys2Proof.Machine
end

section
/-! What a command, a word and a step can do, said once: every outcome is one of the few in `Effect`. Who writes
which piece of state (R20 to R31), and that every step keeps the invariant, are read off its constructors. -/

namespace Sys2Proof.Machine

/-- The state `t` is one that the command `i` can leave in `s`: it raises, or it completes and writes
the pieces of state its rule names, and `ERR`. Stores and commands that return a value are one case each. -/
inductive Effect : Instr → State → State → Prop
  /-- Only `ERR` and `STICKY` change (R184). -/
  | raises {i : Instr} {s : State} {e : ErrCode} (he : e ≠ .ok) : Effect i s (s.raised e)
  /-- R151. -/
  | new {a : BitVec 8} {s : State} : Effect (.new a) s ((s.construct (a == 1)).setErr .ok)
  /-- R155. -/
  | decode {s : State} {auth : Bool} {f : Fields} : Effect .decode s (((s.setAuth auth).setF f).setErr .ok)
  /-- R156. -/
  | encode {s : State} :
    Effect .encode s (((s.setBuf (encodeMessage s.f s.auth)).setBuflen (messageLength s.auth)).setErr .ok)
  /-- R153. -/
  | wrf {a : BitVec 8} {s : State} {f : Fields} : Effect (.wrf a) s ((s.setF f).setErr .ok)
  /-- R152. -/
  | setlen {l : BitVec 16} {s : State} : Effect (.setlen l) s ((s.setBuflen l).setErr .ok)
  /-- `STU`, `STB`, `TSENC`: bytes inside the buffer (R53, R107). -/
  | store {i : Instr} {s : State} {a : Nat} {bs : List Byte} (hop : i.op ∈ [Op.stu, .stb, .tsenc])
    (ha : a + bs.length ≤ 68) : Effect i s ((s.setBuf (s.buf.writeBytes a bs)).setErr .ok)
  /-- The nine commands that return a value (R30). -/
  | value {i : Instr} {s : State} {v : Operand}
    (hop : i.op ∈ [Op.rdf, .ldu, .lds8, .ldb, .tsdec, .u2n, .n2u, .qenc, .qdec]) :
    Effect i s ((s.setRes v).setErr .ok)

/-- A command has one answer. -/
theorem answer_unique {r : Result} {t u : State} (hu : r = .next u) (ht : r = .next t) : t = u :=
  (next_inj _ _).1 (ht.symm.trans hu)

/-- A range-checked command has an effect of `Effect` when its completion in range is one. -/
theorem Effect.of_inRange {i : Instr} {ok : Bool} {s t u : State} (h : inRange ok t s = .next u)
    (hc : ok = true → Effect i s (t.setErr .ok)) : Effect i s u := by
  obtain ⟨hok, rfl⟩ | ⟨-, rfl⟩ := inRange_cases h
  · exact hc hok
  · exact .raises (e := .operandRange) (by decide)

/-- `DECODE` of any other length raises (R182). -/
theorem exec_decode_raises {s : State} (h : ¬ s.lengthOk) :
    exec .decode s = .next (s.raised .invalidLength) := by
  have h' : ¬ (s.buflen = BitVec.ofNat 16 Config.lenPlain ∨ s.buflen = BitVec.ofNat 16 Config.lenAuth) := h
  simp only [exec, execDecode, if_neg h']; rfl

/-- `WRF` of a register that does not exist raises (R78). -/
theorem exec_wrf_raises {a : BitVec 8} {s : State} (h : FieldReg.ofIndex a.toNat = none) :
    exec (.wrf a) s = .next (s.raised .operandRange) := by
  simp only [exec, execWrf, h]; rfl

/-- `RDF` of a register that does not exist raises (R78). -/
theorem exec_rdf_raises {a : BitVec 8} {s : State} (h : FieldReg.ofIndex a.toNat = none) :
    exec (.rdf a) s = .next (s.raised .operandRange) := by
  simp only [exec, execRdf, h]; rfl

/-- The inversion of `exec`: there is no outcome but those of `Effect`. -/
theorem exec_effect {i : Instr} {s t : State} (h : exec i s = .next t) : Effect i s t := by
  cases i with
  | new a => exact .of_inRange h fun _ => .new
  | decode =>
    by_cases hl : s.lengthOk
    · obtain rfl := answer_unique (exec_decode_eq s hl) h
      exact .decode
    · obtain rfl := answer_unique (exec_decode_raises hl) h
      exact .raises (by decide)
  | encode =>
    obtain rfl := answer_unique rfl h
    exact .encode
  | wrf a =>
    cases hr : FieldReg.ofIndex a.toNat with
    | none =>
      obtain rfl := answer_unique (exec_wrf_raises hr) h
      exact .raises (by decide)
    | some r =>
      obtain rfl := answer_unique (exec_wrf_eq a r s (FieldReg.ofIndex_eq_some hr)) h
      exact .wrf
  | rdf a =>
    cases hr : FieldReg.ofIndex a.toNat with
    | none =>
      obtain rfl := answer_unique (exec_rdf_raises hr) h
      exact .raises (by decide)
    | some r =>
      obtain rfl := answer_unique (exec_rdf_eq a r s (FieldReg.ofIndex_eq_some hr)) h
      exact .value (by simp [Instr.op])
  | setlen l =>
    obtain rfl := answer_unique rfl h
    exact .setlen
  | stu a w =>
    refine .of_inRange h fun hok => .store (by simp [Instr.op]) ?_
    rw [length_beEnc]
    exact ((accessInRange_iff _ _).1 hok).2
  | stb a w n =>
    refine .of_inRange h fun hok => .store (by simp [Instr.op]) ?_
    obtain ⟨hw, hn⟩ := (Bool.and_eq_true _ _).mp hok
    rw [length_paddedText _ _ _ (of_decide_eq_true hn)]
    exact ((accessInRange_iff _ _).1 hw).2
  | tsenc a =>
    refine .of_inRange h fun hok => .store (by simp [Instr.op]) ?_
    rw [length_tsEnc]
    exact (inBuffer_iff _ _).1 hok
  | ldu a w => exact .of_inRange h fun _ => .value (by simp [Instr.op])
  | lds8 a => exact .of_inRange h fun _ => .value (by simp [Instr.op])
  | ldb a w => exact .of_inRange h fun _ => .value (by simp [Instr.op])
  | tsdec a => exact .of_inRange h fun _ => .value (by simp [Instr.op])
  | u2n | n2u | qenc | qdec =>
    obtain rfl := answer_unique rfl h
    exact .value (by simp [Instr.op])

/-- `NEW` without an error has given the state of a fresh construction (R151). -/
theorem exec_new_completed {a : BitVec 8} {s t : State} (h : exec (.new a) s = .next t) (hok : t.err = .ok) :
    t = (s.construct (a == 1)).setErr .ok := by
  obtain ⟨-, rfl⟩ | ⟨-, rfl⟩ := inRange_cases h
  · rfl
  · cases hok

/-- `DECODE` without an error has passed the length gate and read the message (R155, R182). -/
theorem exec_decode_completed {s t : State} (h : exec .decode s = .next t) (hok : t.err = .ok) :
    t = ((s.setAuth (s.buflen == 68)).setF (decodeFields s.buf (s.buflen == 68))).setErr .ok := by
  by_cases hl : s.lengthOk
  · exact answer_unique (exec_decode_eq s hl) h
  · obtain rfl := answer_unique (exec_decode_raises hl) h
    cases hok

/-- The inversion of `perform`: the word is a command, or it is illegal and raises (R183). -/
theorem perform_cases {cmd : Word} {s t : State} (h : perform cmd s = .next t) :
    (∃ i, decode cmd = .ok i ∧ exec i s = .next t) ∨
    (∃ e, decode cmd = .error e ∧ t = s.raised .illegalCommand) := by
  cases hd : decode cmd with
  | ok i => exact .inl ⟨i, rfl, (perform_ok hd s).symm.trans h⟩
  | error e => exact .inr ⟨e, rfl, answer_unique (perform_error hd s) h⟩

/-- The inversion of `step`: nothing is presented, a reset, or a word that is performed. -/
theorem step_cases {s t : State} (h : step s = .next t) :
    (s.pending = [] ∧ t = s) ∨
    (∃ rest, s.pending = .reset :: rest ∧ t = State.hostReset rest) ∨
    (∃ cmd opa rest, s.pending = .command cmd opa :: rest ∧ perform cmd (s.present opa rest) = .next t) := by
  match hp : s.pending with
  | [] => exact .inl ⟨rfl, answer_unique (step_idle hp) h⟩
  | .reset :: rest => exact .inr (.inl ⟨rest, rfl, answer_unique (step_reset hp) h⟩)
  | .command cmd opa :: rest => exact .inr (.inr ⟨cmd, opa, rest, rfl, (step_command hp).symm.trans h⟩)

end Sys2Proof.Machine
end

section
/-! The invariant of the block holds at reset and every step keeps it (R26, R27, R31). -/

namespace Sys2Proof.Machine

/-- Settles O3. -/
theorem resetMeetsInvariant : Obligations.ResetMeetsInvariant :=
  ⟨Memory.reset_wf, fun he => absurd State.reset_err he⟩

/-- A command keeps the buffer canonical and records every error it shows. Only `NEW`, `ENCODE` and the stores
write the buffer; a store writes inside the 68 bytes. -/
theorem exec_keeps_inv {i : Instr} {s t : State} (hb : s.buf.wf = true) (h : exec i s = .next t) : t.Inv := by
  cases exec_effect h with
  | raises => exact ⟨hb, fun _ => rfl⟩
  | new => exact ⟨Memory.wf_zero, absurd rfl⟩
  | encode => exact ⟨encodeMessage_wf _ _, absurd rfl⟩
  | store hop ha => exact ⟨Memory.wf_writeBytes _ _ _ ha hb, absurd rfl⟩
  | decode | wrf | setlen | value => exact ⟨hb, absurd rfl⟩

theorem perform_keeps_inv {cmd : Word} {s t : State} (hb : s.buf.wf = true) (h : perform cmd s = .next t) :
    t.Inv := by
  obtain ⟨i, -, hx⟩ | ⟨e, -, rfl⟩ := perform_cases h
  · exact exec_keeps_inv hb hx
  · exact raise_keeps_inv (e := .illegalCommand) hb rfl

/-- Settles O4: a step is idle, a reset, or a word performed on the same buffer. -/
theorem stepKeepsInvariant : Obligations.StepKeepsInvariant := by
  unfold Obligations.StepKeepsInvariant
  intro s t hs h
  obtain ⟨-, rfl⟩ | ⟨rest, -, rfl⟩ | ⟨cmd, opa, rest, -, hx⟩ := step_cases h
  · exact hs
  · exact resetMeetsInvariant
  · exact perform_keeps_inv (s := s.present opa rest) hs.1 hx

/-- A command leaves `STICKY` 1 exactly when it was 1 or the command raised. -/
theorem exec_sticky_iff {i : Instr} {s t : State} (h : exec i s = .next t) :
    t.sticky = true ↔ s.sticky = true ∨ t.err ≠ .ok := by
  cases exec_effect h with
  | raises he => exact ⟨fun _ => .inr he, fun _ => rfl⟩
  | _ => exact ⟨.inl, fun hor => hor.elim id (absurd rfl)⟩

theorem perform_sticky_iff {cmd : Word} {s t : State} (h : perform cmd s = .next t) :
    t.sticky = true ↔ s.sticky = true ∨ t.err ≠ .ok := by
  obtain ⟨i, -, hx⟩ | ⟨e, -, rfl⟩ := perform_cases h
  · exact exec_sticky_iff hx
  · exact ⟨fun _ => .inr nofun, fun _ => rfl⟩

end Sys2Proof.Machine
end

section
/-! The flags: which bit of `STATUS` and of `TSUNSET` is which piece of state (R28, R29). -/

namespace Sys2Proof.Machine

theorem isUnset_eq_decide (ts : BitVec 64) : isUnset ts = decide (ts = 0) := beq_eq_decide ts 0

/-- The bits of `STATUS`, from bit 0 up (R29). -/
theorem State.status_getLsbD (s : State) (k : Nat) : s.status.getLsbD k =
    if k = 0 then s.auth
    else if k < 3 then s.err.code.getLsbD (k - 1)
    else if k = 3 then s.sticky
    else s.tsUnset.getLsbD (k - 4) := by
  refine (BitVec.getLsbD_append (i := k)).trans ?_
  rw [BitVec.getLsbD_append, BitVec.getLsbD_append]
  match k with
  | 0 | 1 | 2 | 3 => simp
  | k + 4 => simp

/-- Bits 2:1 of `STATUS` are `ERR`. -/
theorem State.status_err (s : State) : s.status.extractLsb' 1 2 = s.err.code := by
  apply BitVec.eq_of_getLsbD_eq
  intro k hk
  rw [BitVec.getLsbD_extractLsb', s.status_getLsbD]
  interval_cases k <;> rfl

/-- Bits 7:4 of `STATUS` are `TSUNSET`. -/
theorem State.status_tsUnset (s : State) : s.status.extractLsb' 4 4 = s.tsUnset := by
  apply BitVec.eq_of_getLsbD_eq
  intro k hk
  rw [BitVec.getLsbD_extractLsb', s.status_getLsbD]
  interval_cases k <;> rfl

/-- The bits of `TSUNSET`, from bit 0 up (R28). -/
theorem State.tsUnset_getLsbD (s : State) (k : Nat) : s.tsUnset.getLsbD k =
    [decide (s.f.refTs = 0), decide (s.f.orgTs = 0), decide (s.f.rcvTs = 0), decide (s.f.xmtTs = 0)].getD k
      false := by
  simp only [← isUnset_eq_decide]
  refine (BitVec.getLsbD_append (i := k)).trans ?_
  rw [BitVec.getLsbD_append, BitVec.getLsbD_append]
  match k with
  | 0 | 1 | 2 | 3 => simp
  | k + 4 => simp

/-- Settles O27. -/
theorem statusPacksItsFields : Obligations.StatusPacksItsFields := by
  unfold Obligations.StatusPacksItsFields
  intro s
  exact ⟨s.status_getLsbD 0, s.status_err, s.status_getLsbD 3,
    (s.status_getLsbD 4).trans (s.tsUnset_getLsbD 0), (s.status_getLsbD 5).trans (s.tsUnset_getLsbD 1),
    (s.status_getLsbD 6).trans (s.tsUnset_getLsbD 2), (s.status_getLsbD 7).trans (s.tsUnset_getLsbD 3),
    rfl, rfl, rfl⟩

/-- A wire timestamp reads as 0 ms exactly when its seconds are 0 and its fraction is below 1 ms, that is below
`2^32 / 1000`, rounded up 4294968 (R120, R130). -/
theorem Memory.timestamp_eq_zero_iff (m : Memory) (a : Nat) :
    m.timestamp a = 0 ↔ beDec (m.readBytes a 4) = 0 ∧ beDec (m.readBytes (a + 4) 4) < 4294968 := by
  obtain ⟨hsec, hfrac⟩ := readBytes_eight_split m a
  have hms : (m.timestamp a).toNat =
      1000 * beDec (m.readBytes a 4) + 1000 * beDec (m.readBytes (a + 4) 4) / 2 ^ 32 := by
    rw [timestamp_toNat, tsDec, hsec, hfrac]
  rw [← BitVec.toNat_inj, hms, show (0 : BitVec 64).toNat = 0 from rfl]
  omega

/-- The `k`-th `TSUNSET` bit after the fields of a message are read, by the `k`-th wire timestamp. -/
theorem State.tsUnset_decodeFields {t : State} {m : Memory} {auth : Bool} (h : t.f = decodeFields m auth) {k : Nat}
    (hk : k < 4) : t.tsUnset.getLsbD k = decide (m.timestamp (16 + 8 * k) = 0) := by
  rw [t.tsUnset_getLsbD, h]
  interval_cases k <;> rfl

/-- Settles O28: after `DECODE` the registers are the wire timestamps, each 0 exactly below 1 ms. -/
theorem unsetFlagsFollowTimestampRegisters : Obligations.UnsetFlagsFollowTimestampRegisters := by
  unfold Obligations.UnsetFlagsFollowTimestampRegisters
  refine ⟨fun s => ⟨s.tsUnset_getLsbD 0, s.tsUnset_getLsbD 1, s.tsUnset_getLsbD 2, s.tsUnset_getLsbD 3,
    s.status_tsUnset⟩, fun s hl => ⟨_, exec_decode_eq s hl, fun k hk => ?_⟩⟩
  rw [State.tsUnset_decodeFields (m := s.buf) rfl hk, decide_eq_true_iff, Memory.timestamp_eq_zero_iff,
    show 16 + 8 * k + 4 = 20 + 8 * k by omega]

/-- Settles O17. -/
theorem stickySetByErrorsNeverClearedByCommands : Obligations.StickySetByErrorsNeverClearedByCommands := by
  unfold Obligations.StickySetByErrorsNeverClearedByCommands
  refine ⟨fun s t cmd opa rest hp h => ?_, State.reset_sticky, fun s => s.status_getLsbD 3⟩
  rw [step_command hp] at h
  exact perform_sticky_iff (s := s.present opa rest) h

/-- Settles O1. -/
theorem resetLeavesFreshPlainInstance : Obligations.ResetLeavesFreshPlainInstance :=
  ⟨Fields.get_zero, Memory.zero_read, rfl, rfl, rfl, rfl, by decide, by decide, rfl⟩

end Sys2Proof.Machine
end

section
/-! Who writes what: for each piece of state the commands that write it; every other outcome of `Effect` leaves
it as it was (R20 to R31). -/

namespace Sys2Proof.Machine

/-- Settles O22. -/
theorem authWrittenOnlyByNewAndDecode : Obligations.AuthWrittenOnlyByNewAndDecode := by
  unfold Obligations.AuthWrittenOnlyByNewAndDecode
  refine fun i s t h => ⟨?_, ?_, fun hor => ?_⟩
  · rintro a rfl hok
    rw [exec_new_completed h hok]; rfl
  · rintro rfl hok
    rw [exec_decode_completed h hok]; rfl
  · cases exec_effect h with
    | new => exact hor.elim (fun hn => absurd rfl (hn.1 _)) (absurd rfl)
    | decode => exact hor.elim (fun hn => absurd rfl hn.2) (absurd rfl)
    | _ => rfl

/-- Settles O23. -/
theorem buflenWrittenOnlyBySetlenNewEncode : Obligations.BuflenWrittenOnlyBySetlenNewEncode := by
  unfold Obligations.BuflenWrittenOnlyBySetlenNewEncode
  refine fun i s t h => ⟨?_, ?_, ?_, fun hor => ?_⟩
  · rintro l rfl
    obtain rfl := answer_unique (exec_setlen_eq l s) h
    rfl
  · rintro a rfl hok
    rw [exec_new_completed h hok]; rfl
  · rintro rfl
    obtain rfl := answer_unique (exec_encode_eq s) h
    rfl
  · cases exec_effect h with
    | setlen => exact hor.elim (fun hn => absurd rfl (hn.1 _)) (absurd rfl)
    | new => exact hor.elim (fun hn => absurd rfl (hn.2.1 _)) (absurd rfl)
    | encode => exact hor.elim (fun hn => absurd rfl hn.2.2) (absurd rfl)
    | _ => rfl

/-- A command that returns a value is none of those that return none (R30). -/
theorem value_op_not_mem {op : Op} (h : op ∈ [Op.rdf, .ldu, .lds8, .ldb, .tsdec, .u2n, .n2u, .qenc, .qdec]) :
    op ∉ [Op.new, .decode, .encode, .wrf, .setlen, .stu, .stb, .tsenc] := by
  revert h
  cases op <;> decide

/-- Settles O24. -/
theorem resultWrittenOnlyByValueCommands : Obligations.ResultWrittenOnlyByValueCommands := by
  unfold Obligations.ResultWrittenOnlyByValueCommands
  intro i s t h hor
  cases exec_effect h with
  | value hop => exact hor.elim (fun hn => absurd hn (value_op_not_mem hop)) (absurd rfl)
  | _ => rfl

/-- Settles O25. -/
theorem bufferWrittenOnlyByStoresEncodeNew : Obligations.BufferWrittenOnlyByStoresEncodeNew := by
  unfold Obligations.BufferWrittenOnlyByStoresEncodeNew
  intro i s t h hor x
  cases exec_effect h with
  | store hop => exact hor.elim (fun hn => absurd (List.mem_append_left [Op.encode, .new] hop) hn) (absurd rfl)
  | encode => exact hor.elim (absurd (by simp [Instr.op])) (absurd rfl)
  | new => exact hor.elim (absurd (by simp [Instr.op])) (absurd rfl)
  | _ => rfl

/-- Settles O26. -/
theorem fieldsWrittenOnlyByNewWrfDecode : Obligations.FieldsWrittenOnlyByNewWrfDecode := by
  unfold Obligations.FieldsWrittenOnlyByNewWrfDecode
  intro i s t h hor r
  cases exec_effect h with
  | new | wrf | decode => exact hor.elim (absurd (by simp [Instr.op])) (absurd rfl)
  | _ => rfl

/-- Settles O58: the two variants are `NEW 0` and `NEW 1`. -/
theorem newComparedWithReset : Obligations.NewComparedWithReset := by
  unfold Obligations.NewComparedWithReset
  intro a s ha
  refine ⟨_, exec_new_eq a s ha, rfl, rfl, beq_eq_decide a 1, ?_, rfl, rfl, rfl⟩
  obtain rfl | rfl : a = 0 ∨ a = 1 := by bv_omega
  · rfl
  · rfl

end Sys2Proof.Machine
end

section
/-! Accesses that leave the buffer: refused by the range check alone, before a byte is read or written (R53). -/

namespace Sys2Proof.Machine

/-- Out of range, the completion `t` is not looked at. -/
theorem inRange_raises {ok : Bool} {t s : State} (h : ¬ ok = true) :
    inRange ok t s = .next (s.raised .operandRange) := by
  rw [eq_false_of_ne_true h]; rfl

theorem not_inBuffer {a n : Nat} (h : a + n > 68) : ¬ inBuffer a n = true :=
  fun hok => Nat.not_le.mpr h ((inBuffer_iff a n).1 hok)

theorem not_accessInRange {a w : Nat} (h : a + w > 68) : ¬ accessInRange a w = true :=
  fun hok => Nat.not_le.mpr h ((accessInRange_iff a w).1 hok).2

/-- Settles O12: `STB` is refused whatever `n` is, as its access is one of the two checks it must pass. -/
theorem accessPastBufferRefusedWhole : Obligations.AccessPastBufferRefusedWhole := by
  unfold Obligations.AccessPastBufferRefusedWhole
  refine fun a w n s => ⟨fun h => ?_, fun h => ?_, fun h => ?_⟩
  · have hacc := not_accessInRange h
    have hstb : ¬ (accessInRange a.toNat w.toNat && decide (n.toNat ≤ w.toNat)) = true :=
      fun hok => hacc ((Bool.and_eq_true _ _).mp hok).1
    exact ⟨inRange_raises hacc, inRange_raises hacc, inRange_raises hstb, inRange_raises hacc⟩
  · exact inRange_raises (not_inBuffer h)
  · exact ⟨inRange_raises (not_inBuffer h), inRange_raises (not_inBuffer h)⟩

end Sys2Proof.Machine
end

section
/-! The decoder and the encoder are each other's inverse: a row's fields are the ones its mask leaves open, so the
words that match a row are those of its commands (R71 to R77, R83). -/

namespace Sys2Proof

/-! ## What the decoder answers -/

theorem Op.mem_all (op : Op) : op ∈ Op.all := by
  cases op <;> decide

/-- A byte names no row exactly when it is no row's opcode. -/
theorem Op.ofByte_eq_none_iff {b : BitVec 8} : Op.ofByte b = none ↔ ∀ op : Op, op.code ≠ b := by
  simp [Op.ofByte, List.find?_eq_none, Op.mem_all]

/-- A word whose opcode is that of no row. -/
theorem decode_unassigned {cmd : Word} (h : ∀ op : Op, op.code ≠ cmd.opField) :
    decode cmd = .error .unassignedOpcode := by
  simp only [decode, Op.ofByte_eq_none_iff.2 h]

/-- A word of a row, matching under its mask. -/
theorem decode_matching {op : Op} {cmd : Word} (hop : op.code = cmd.opField)
    (hm : cmd &&& op.mask = op.matchWord) : decode cmd = .ok (op.build cmd) := by
  simp only [decode, ← hop, Op.ofByte_code, if_pos hm]

/-- A word of a row with a must-be-zero field that is not zero. -/
theorem decode_nonzero {op : Op} {cmd : Word} (hop : op.code = cmd.opField)
    (hm : cmd &&& op.mask ≠ op.matchWord) : decode cmd = .error .nonzeroField := by
  simp only [decode, ← hop, Op.ofByte_code, if_neg hm]

/-- The three answers of the decoder, each with what it says of the word. -/
theorem decode_cases (cmd : Word) :
    ((∀ op : Op, op.code ≠ cmd.opField) ∧ decode cmd = .error .unassignedOpcode) ∨
    (∃ op : Op, op.code = cmd.opField ∧ cmd &&& op.mask ≠ op.matchWord ∧ decode cmd = .error .nonzeroField) ∨
    (∃ op : Op, op.code = cmd.opField ∧ cmd &&& op.mask = op.matchWord ∧ decode cmd = .ok (op.build cmd)) := by
  by_cases hrow : ∃ op : Op, op.code = cmd.opField
  · obtain ⟨op, hop⟩ := hrow
    by_cases hm : cmd &&& op.mask = op.matchWord
    · exact .inr (.inr ⟨op, hop, hm, decode_matching hop hm⟩)
    · exact .inr (.inl ⟨op, hop, hm, decode_nonzero hop hm⟩)
  · have hnone := not_exists.1 hrow
    exact .inl ⟨hnone, decode_unassigned hnone⟩

/-! ## Decoding what was encoded -/

/-- The word of a command matches the command's row (R76). -/
theorem encode_matches (i : Instr) : encode i &&& i.op.mask = i.op.matchWord := by
  cases i with
  | new a => exact Laws.EncodedRow.new a
  | decode => exact Laws.EncodedRow.decode
  | encode => exact Laws.EncodedRow.encode
  | wrf a => exact Laws.EncodedRow.wrf a
  | rdf a => exact Laws.EncodedRow.rdf a
  | setlen l => exact Laws.EncodedRow.setlen l
  | stu a w => exact Laws.EncodedRow.stu a w
  | ldu a w => exact Laws.EncodedRow.ldu a w
  | lds8 a => exact Laws.EncodedRow.lds8 a
  | stb a w n => exact Laws.EncodedRow.stb a w n
  | ldb a w => exact Laws.EncodedRow.ldb a w
  | tsenc a => exact Laws.EncodedRow.tsenc a
  | tsdec a => exact Laws.EncodedRow.tsdec a
  | u2n => exact Laws.EncodedRow.u2n
  | n2u => exact Laws.EncodedRow.n2u
  | qenc => exact Laws.EncodedRow.qenc
  | qdec => exact Laws.EncodedRow.qdec

/-- A row reads back the fields of its own command from the command's word (R71, R72). -/
theorem build_encode (i : Instr) : i.op.build (encode i) = i := by
  cases i with
  | setlen l => simp only [encode, Instr.op, Op.build, formatL_imm16Field]
  | _ => simp only [encode, Instr.op, Op.build, formatR_aField, formatR_wField, formatR_nField]

theorem decode_encode (i : Instr) : decode (encode i) = .ok i := by
  rw [decode_matching (encode_opField i).symm (encode_matches i), build_encode]

/-- Settles O18: the word of a command has its row's opcode, matches the row, and holds the command's fields. -/
theorem decodeOfEncodeIsSameCommand : Obligations.DecodeOfEncodeIsSameCommand := decode_encode

/-! ## Encoding what was decoded -/

section
variable {op : Op} {cmd : Word}

/-- Fields outside the opcode are zero in every match word, so those the mask covers are zero (R76). -/
theorem aField_masked (hm : cmd &&& op.mask = op.matchWord) : cmd.aField &&& op.mask.aField = 0 := by
  rw [← Word.aField_and, hm]
  cases op <;> decide

theorem wField_masked (hm : cmd &&& op.mask = op.matchWord) : cmd.wField &&& op.mask.wField = 0 := by
  rw [← Word.wField_and, hm]
  cases op <;> decide

theorem nField_masked (hm : cmd &&& op.mask = op.matchWord) : cmd.nField &&& op.mask.nField = 0 := by
  rw [← Word.nField_and, hm]
  cases op <;> decide

/-- A word is format R of its own fields (R71). -/
theorem formatR_of_fields {a w n : BitVec 8} (hop : op.code = cmd.opField) (ha : cmd.aField = a)
    (hw : cmd.wField = w) (hn : cmd.nField = n) : formatR op a w n = cmd :=
  Word.eq_of_fields ((formatR_opField op a w n).trans hop) ((formatR_aField op a w n).trans ha.symm)
    ((formatR_wField op a w n).trans hw.symm) ((formatR_nField op a w n).trans hn.symm)

theorem Word.wField_eq_imm16Field (cmd : Word) : cmd.wField = cmd.imm16Field.extractLsb' 8 8 := by
  simp [Word.wField, Word.imm16Field]

theorem Word.nField_eq_imm16Field (cmd : Word) : cmd.nField = cmd.imm16Field.extractLsb' 0 8 := by
  simp [Word.nField, Word.imm16Field]

/-- A word whose `a` is zero is format L of its own fields (R72). -/
theorem formatL_of_fields (hop : op.code = cmd.opField) (ha : cmd.aField = 0) :
    formatL op cmd.imm16Field = cmd := by
  refine Word.eq_of_fields ((formatL_opField op _).trans hop) ((formatL_aField op _).trans ha.symm) ?_ ?_
  · rw [Word.wField_eq_imm16Field, formatL_imm16Field, ← Word.wField_eq_imm16Field]
  · rw [Word.nField_eq_imm16Field, formatL_imm16Field, ← Word.nField_eq_imm16Field]

/-- A field under a mask of ones is zero when the masked field is. -/
theorem eq_zero_of_and_ones {x : BitVec 8} (h : x &&& 0xFF = 0) : x = 0 := by
  rwa [show (0xFF : BitVec 8) = BitVec.allOnes 8 from rfl, BitVec.and_allOnes] at h

/-- The command a row reads from a word that matches it has that word. -/
theorem encode_build (hop : op.code = cmd.opField) (hm : cmd &&& op.mask = op.matchWord) :
    encode (op.build cmd) = cmd := by
  have ha := aField_masked hm
  have hw := wField_masked hm
  have hn := nField_masked hm
  cases op with
  | setlen => exact formatL_of_fields hop (eq_zero_of_and_ones ha)
  | stb => exact formatR_of_fields hop rfl rfl rfl
  | stu | ldu | ldb => exact formatR_of_fields hop rfl rfl (eq_zero_of_and_ones hn)
  | new | wrf | rdf | lds8 | tsenc | tsdec =>
    exact formatR_of_fields hop rfl (eq_zero_of_and_ones hw) (eq_zero_of_and_ones hn)
  | decode | encode | u2n | n2u | qenc | qdec =>
    exact formatR_of_fields hop (eq_zero_of_and_ones ha) (eq_zero_of_and_ones hw) (eq_zero_of_and_ones hn)

end

theorem encode_of_decode {cmd : Word} {i : Instr} (h : decode cmd = .ok i) : encode i = cmd := by
  obtain ⟨-, hd⟩ | ⟨op, -, -, hd⟩ | ⟨op, hop, hm, hd⟩ := decode_cases cmd
  · cases hd.symm.trans h
  · cases hd.symm.trans h
  · cases hd.symm.trans h
    exact encode_build hop hm

theorem decode_eq_ok_iff (cmd : Word) (i : Instr) : decode cmd = .ok i ↔ encode i = cmd :=
  ⟨encode_of_decode, fun h => h ▸ decode_encode i⟩

/-! ## Illegal words -/

theorem decode_eq_unassigned_iff (cmd : Word) :
    decode cmd = .error .unassignedOpcode ↔ ∀ op : Op, op.code ≠ cmd.opField := by
  refine ⟨fun h => ?_, decode_unassigned⟩
  obtain ⟨hnone, -⟩ | ⟨op, -, -, hd⟩ | ⟨op, -, -, hd⟩ := decode_cases cmd
  · exact hnone
  · cases hd.symm.trans h
  · cases hd.symm.trans h

theorem decode_eq_nonzero_iff (cmd : Word) :
    decode cmd = .error .nonzeroField ↔ ∃ op : Op, op.code = cmd.opField ∧ cmd &&& op.mask ≠ op.matchWord := by
  refine ⟨fun h => ?_, fun ⟨op, hop, hm⟩ => decode_nonzero hop hm⟩
  obtain ⟨-, hd⟩ | ⟨op, hop, hm, -⟩ | ⟨op, -, -, hd⟩ := decode_cases cmd
  · cases hd.symm.trans h
  · exact ⟨op, hop, hm⟩
  · cases hd.symm.trans h

/-- Every opcode is at most `0x31` (R75). -/
theorem Op.code_lt (op : Op) : op.code.toNat < 0x32 := by
  cases op <;> decide

/-- From `0x32` up no byte is an opcode. -/
theorem ofByte_isNone_of_high {b : Nat} (hlo : 0x32 ≤ b) (hhi : b < 256) :
    (Op.ofByte (BitVec.ofNat 8 b)).isNone = true := by
  rw [Option.isNone_iff_eq_none, Op.ofByte_eq_none_iff]
  intro op hop
  have hlt := op.code_lt
  rw [hop, BitVec.toNat_ofNat, Nat.mod_eq_of_lt hhi] at hlt
  exact Nat.not_le.mpr hlt hlo

/-- The opcodes no row has, in the ranges R77 lists: below `0x32` the map is looked through, above it is empty. -/
theorem unassigned_opcodes :
    ((List.range 256).filter fun b => (Op.ofByte (BitVec.ofNat 8 b)).isNone) =
      [0x00] ++ List.range' 0x07 9 ++ List.range' 0x15 11 ++ List.range' 0x24 12 ++ List.range' 0x32 206 := by
  have hsplit : List.range 256 = List.range 0x32 ++ List.range' 0x32 206 := by
    rw [List.range_eq_range', List.range_eq_range', List.range'_append_1]
  have hlow : ((List.range 0x32).filter fun b => (Op.ofByte (BitVec.ofNat 8 b)).isNone) =
      [0x00] ++ List.range' 0x07 9 ++ List.range' 0x15 11 ++ List.range' 0x24 12 := by decide
  rw [hsplit, List.filter_append, hlow, List.filter_eq_self.2]
  intro b hb
  obtain ⟨hlo, hhi⟩ := List.mem_range'_1.1 hb
  exact ofByte_isNone_of_high hlo hhi

/-- Settles O19. -/
theorem everyWordIsOneCommandOrIllegal : Obligations.EveryWordIsOneCommandOrIllegal := by
  unfold Obligations.EveryWordIsOneCommandOrIllegal
  refine ⟨decode_eq_ok_iff, fun cmd => ⟨decode_eq_unassigned_iff cmd, decode_eq_nonzero_iff cmd⟩, rfl, rfl,
    fun s cmd e h => Machine.perform_error h s, unassigned_opcodes, ?_⟩
  rw [unassigned_opcodes]
  simp

/-- Settles O20: each word is the one its command encodes to; the last two break their row's mask. -/
theorem specWordsDecodeAsWritten : Obligations.SpecWordsDecodeAsWritten :=
  ⟨decode_encode (.new 1), decode_encode .decode, decode_encode .encode, decode_encode (.wrf 8),
    decode_encode (.rdf 5), decode_encode (.setlen 68), decode_encode (.stu 4 4), decode_encode (.ldu 6 2),
    decode_encode (.lds8 67), decode_encode (.stb 12 4 3), decode_encode (.ldb 12 4), decode_encode (.tsenc 40),
    decode_encode (.tsdec 40), decode_encode .u2n, decode_encode .n2u, decode_encode .qenc, decode_encode .qdec,
    decode_nonzero (op := .ldu) rfl (by decide), decode_nonzero (op := .setlen) rfl (by decide)⟩

end Sys2Proof
end

section
/-! Performing what was decoded: a step with a command presented, and the ranges of a legal word (R78, R83). -/

namespace Sys2Proof.Machine

/-- Settles O7. -/
theorem stepRunsDecodedCommand : Obligations.StepRunsDecodedCommand := by
  unfold Obligations.StepRunsDecodedCommand
  intro s cmd opa rest i hp hd
  rw [step_command hp, perform_ok hd]
  rfl

/-! ## Ranges, as arithmetic -/

theorem decide_le_eq_false_iff {m n : Nat} : decide (m ≤ n) = false ↔ n < m :=
  decide_eq_false_iff_not.trans Nat.not_le

theorem accessOk_eq_false_iff {a w : Nat} : accessOk a w = false ↔ 16 < w ∨ 68 < a + w := by
  rw [← Bool.not_eq_true, accessOk_iff, not_and_or, Nat.not_le, Nat.not_le]

theorem inBuffer_eq_false_iff {a n : Nat} : inBuffer a n = false ↔ 68 < a + n :=
  decide_le_eq_false_iff

/-! ## Who raises `OPERAND_RANGE` -/

section
variable {s t : State}

/-- A command that completes has `ERR` 0, so it has not raised. -/
theorem complete_ne_raised {e : ErrCode} (he : e ≠ .ok) : complete t ≠ .next (s.raised e) :=
  fun h => he (congrArg State.err ((next_inj _ _).1 h)).symm

theorem inRange_eq_raised_iff {ok : Bool} :
    inRange ok t s = .next (s.raised .operandRange) ↔ ok = false := by
  cases ok with
  | true => exact iff_of_false (complete_ne_raised (by decide)) nofun
  | false => exact iff_of_true rfl rfl

/-- A command that names a register raises for the indices of none, when it completes for every register. -/
theorem raisesRange_register_iff {i : Instr} {a : BitVec 8}
    (hnone : FieldReg.ofIndex a.toNat = none → RaisesRange i s)
    (hsome : ∀ r : FieldReg, a.toNat = r.index → ∃ t, exec i s = complete t) :
    RaisesRange i s ↔ 14 < a.toNat := by
  rw [← FieldReg.ofIndex_eq_none]
  refine ⟨fun h => ?_, hnone⟩
  cases hr : FieldReg.ofIndex a.toNat with
  | none => rfl
  | some r =>
    obtain ⟨t, ht⟩ := hsome r (FieldReg.ofIndex_eq_some hr)
    exact absurd (ht.symm.trans h) (complete_ne_raised (by decide))

/-- The error of `DECODE` is another one (R182). -/
theorem not_raisesRange_decode : ¬ RaisesRange .decode s := by
  intro h
  by_cases hl : s.lengthOk
  · exact complete_ne_raised (by decide) ((exec_decode_eq s hl).symm.trans h)
  · cases congrArg State.err (answer_unique h (exec_decode_raises hl))

end

/-- `OPERAND_RANGE` is raised by exactly the commands that are not well-formed, in every state (R78, R185). -/
theorem raisesRange_iff (i : Instr) (s : State) : RaisesRange i s ↔ i.wellFormed = false := by
  cases i with
  | new | stu | ldu | stb | ldb => exact inRange_eq_raised_iff
  | lds8 a | tsenc a | tsdec a =>
    refine inRange_eq_raised_iff.trans (inBuffer_eq_false_iff.trans (Iff.trans ?_ decide_le_eq_false_iff.symm))
    omega
  | wrf a =>
    exact (raisesRange_register_iff exec_wrf_raises fun r hr => ⟨_, exec_wrf_eq a r s hr⟩).trans
      decide_le_eq_false_iff.symm
  | rdf a =>
    exact (raisesRange_register_iff exec_rdf_raises fun r hr => ⟨_, exec_rdf_eq a r s hr⟩).trans
      decide_le_eq_false_iff.symm
  | decode => exact iff_of_false not_raisesRange_decode nofun
  | encode | setlen | u2n | n2u | qenc | qdec =>
    exact iff_of_false (complete_ne_raised (by decide)) nofun

/-- Two fields out of range: the access, or the text longer than it (R103). -/
theorem wellFormed_stb_eq_false_iff (a w n : BitVec 8) :
    (Instr.stb a w n).wellFormed = false ↔ 16 < w.toNat ∨ 68 < a.toNat + w.toNat ∨ w.toNat < n.toNat := by
  rw [Instr.wellFormed, Bool.and_eq_false_iff, accessOk_eq_false_iff, decide_le_eq_false_iff, or_assoc]

/-- Settles O11: each row of the table is `wellFormed` of its command, as arithmetic. -/
theorem operandRangeRaisedExactlyOutOfRange : Obligations.OperandRangeRaisedExactlyOutOfRange := by
  unfold Obligations.OperandRangeRaisedExactlyOutOfRange
  intro a w n l s
  have single {i : Instr} {hi : Nat} (hwf : i.wellFormed = decide (a.toNat ≤ hi)) :
      RaisesRange i s ↔ hi < a.toNat := by
    rw [raisesRange_iff, hwf, decide_le_eq_false_iff]
  have access {i : Instr} (hwf : i.wellFormed = accessOk a.toNat w.toNat) :
      RaisesRange i s ↔ 16 < w.toNat ∨ 68 < a.toNat + w.toNat := by
    rw [raisesRange_iff, hwf, accessOk_eq_false_iff]
  have never {i : Instr} (hwf : i.wellFormed = true) : ¬ RaisesRange i s := by
    rw [raisesRange_iff, hwf]
    exact nofun
  exact ⟨single rfl, single rfl, single rfl, access rfl, access rfl, access rfl,
    (raisesRange_iff _ s).trans (wellFormed_stb_eq_false_iff a w n), single rfl, single rfl, single rfl,
    never rfl, never rfl, never rfl, never rfl, never rfl, never rfl, never rfl, fun i => raisesRange_iff i s⟩

end Sys2Proof.Machine
end

section
/-! Operand bits a command does not read are ignored (R70, R74). -/

namespace Sys2Proof.Machine

section
variable {s t u : State} {x : Operand}

/-- Numbers that agree in their low `n` bits agree in the `n`-bit words cut from them. -/
theorem setWidth_eq_of_mod {n : Nat} {x y : Operand} (h : x.toNat % 2 ^ n = y.toNat % 2 ^ n) :
    x.setWidth n = y.setWidth n :=
  BitVec.eq_of_toNat_eq (by rw [BitVec.toNat_setWidth, BitVec.toNat_setWidth, h])

theorem complete_setOpa (h : complete s = .next u) : complete (s.setOpa x) = .next (u.setOpa x) := by
  obtain rfl := (next_inj _ _).1 h
  rfl

theorem raise_setOpa {e : ErrCode} (h : raise e s = .next u) : raise e (s.setOpa x) = .next (u.setOpa x) := by
  obtain rfl := (next_inj _ _).1 h
  rfl

theorem inRange_setOpa {ok : Bool} (h : inRange ok t s = .next u) :
    inRange ok (t.setOpa x) (s.setOpa x) = .next (u.setOpa x) := by
  cases ok with
  | true => exact complete_setOpa h
  | false => exact raise_setOpa h

theorem exec_decode_setOpa (h : exec .decode s = .next u) : exec .decode (s.setOpa x) = .next (u.setOpa x) := by
  by_cases hl : s.lengthOk
  · obtain rfl := answer_unique (exec_decode_eq s hl) h
    exact exec_decode_eq (s.setOpa x) hl
  · obtain rfl := answer_unique (exec_decode_raises hl) h
    exact exec_decode_raises (s := s.setOpa x) hl

theorem exec_rdf_setOpa {a : BitVec 8} (h : exec (.rdf a) s = .next u) :
    exec (.rdf a) (s.setOpa x) = .next (u.setOpa x) := by
  cases hr : FieldReg.ofIndex a.toNat with
  | none =>
    obtain rfl := answer_unique (exec_rdf_raises hr) h
    exact exec_rdf_raises hr
  | some r =>
    obtain rfl := answer_unique (exec_rdf_eq a r s (FieldReg.ofIndex_eq_some hr)) h
    exact exec_rdf_eq a r (s.setOpa x) (FieldReg.ofIndex_eq_some hr)

/-- The bits `WRF` reads are those of the register's width; it reads none when there is no register. -/
theorem exec_wrf_setOpa {a : BitVec 8}
    (hx : x.toNat % 2 ^ operandBits (.wrf a) = s.opa.toNat % 2 ^ operandBits (.wrf a))
    (h : exec (.wrf a) s = .next u) : exec (.wrf a) (s.setOpa x) = .next (u.setOpa x) := by
  cases hr : FieldReg.ofIndex a.toNat with
  | none =>
    obtain rfl := answer_unique (exec_wrf_raises hr) h
    exact exec_wrf_raises hr
  | some r =>
    simp only [operandBits, hr] at hx
    have hreg := FieldReg.ofIndex_eq_some hr
    obtain rfl := answer_unique (exec_wrf_eq a r s hreg) h
    rw [exec_wrf_eq a r _ hreg, State.setOpa_opa, setWidth_eq_of_mod hx]
    rfl

theorem State.opaBytes_setOpa {n : Nat} (hx : x.toNat % 2 ^ (8 * n) = s.opa.toNat % 2 ^ (8 * n)) :
    (s.setOpa x).opaBytes n = s.opaBytes n := hx

theorem State.opa64_setOpa (hx : x.toNat % 2 ^ 64 = s.opa.toNat % 2 ^ 64) : (s.setOpa x).opa64 = s.opa64 :=
  setWidth_eq_of_mod hx

theorem State.opa32_setOpa (hx : x.toNat % 2 ^ 32 = s.opa.toNat % 2 ^ 32) : (s.setOpa x).opa32 = s.opa32 :=
  setWidth_eq_of_mod hx

/-- A command looks at its own operand bits only, and carries the operand at the port through. -/
theorem exec_setOpa {i : Instr} (hx : x.toNat % 2 ^ operandBits i = s.opa.toNat % 2 ^ operandBits i)
    (h : exec i s = .next u) : exec i (s.setOpa x) = .next (u.setOpa x) := by
  cases i with
  | decode => exact exec_decode_setOpa h
  | rdf a => exact exec_rdf_setOpa h
  | wrf a => exact exec_wrf_setOpa hx h
  | new | ldu | lds8 | ldb | tsdec => exact inRange_setOpa h
  | encode | setlen => exact complete_setOpa h
  | stu a w =>
    simp only [exec, execStu, State.opaBytes_setOpa hx] at h ⊢
    exact inRange_setOpa h
  | stb a w n =>
    simp only [exec, execStb, paddedText, State.opaBytes_setOpa hx] at h ⊢
    exact inRange_setOpa h
  | tsenc a =>
    simp only [exec, execTsenc, State.opa64_setOpa hx] at h ⊢
    exact inRange_setOpa h
  | u2n | n2u | qenc =>
    simp only [exec, execU2n, execN2u, execQenc, State.opa64_setOpa hx] at h ⊢
    exact complete_setOpa h
  | qdec =>
    simp only [exec, execQdec, State.opa32_setOpa hx] at h ⊢
    exact complete_setOpa h

end

/-- Settles O16. -/
theorem unreadOperandBitsAreIgnored : Obligations.UnreadOperandBitsAreIgnored := by
  unfold Obligations.UnreadOperandBitsAreIgnored
  exact fun i s t x hx h => exec_setOpa hx h

end Sys2Proof.Machine
end

section
/-! The pseudo-commands are their expansions (R82): the word of each, and the register `WRTAG` writes. -/

namespace Sys2Proof.Machine

/-! ## One-byte loads and stores -/

/-- A one-byte access in format R: the offset is put into the word of offset 0 (R71). -/
theorem formatR_one (op : Op) (a : BitVec 8) :
    formatR op a 1 0 = formatR op 0 1 0 ||| a.setWidth 32 <<< 16 := by
  have hzero : (0 : BitVec 8).setWidth 32 = 0#32 := rfl
  simp only [formatR, hzero, BitVec.zero_shiftLeft, BitVec.or_zero]
  rw [BitVec.or_assoc, BitVec.or_assoc, BitVec.or_comm (a.setWidth 32 <<< 16)]

/-! ## Tags as numbers -/

/-- The number of a byte string is the one its bytes build up from the left (R11). -/
theorem foldl_eq_beDec (bs : List Byte) (v : Nat) :
    bs.foldl (fun v b => 256 * v + b.toNat) v = 256 ^ bs.length * v + beDec bs := by
  induction bs generalizing v with
  | nil => simp [beDec]
  | cons b bs ih =>
    rw [List.foldl_cons, ih, beDec, List.length_cons]
    ring

theorem beDec_append (bs cs : List Byte) : beDec (bs ++ cs) = 256 ^ cs.length * beDec bs + beDec cs := by
  induction bs with
  | nil => simp [beDec]
  | cons b bs ih =>
    rw [List.cons_append, beDec, beDec, ih, List.length_append]
    ring

theorem beDec_zeros (k : Nat) : beDec (List.replicate k 0) = 0 := by
  induction k with
  | zero => rfl
  | succ k ih => rw [List.replicate_succ, beDec, ih]; simp

variable {tag : List Byte}

/-- The number of a tag, and how it is written as a shift (R82). -/
theorem tagValue_eq_shift (tag : List Byte) : tagValue tag = beDec tag <<< (8 * (4 - tag.length)) := by
  rw [tagValue, foldl_eq_beDec, Nat.shiftLeft_eq, two_pow_eight_mul, Nat.mul_zero, Nat.zero_add, Nat.mul_comm]

/-- It is the number of the four bytes: the characters, then zeros (R22). -/
theorem tagValue_eq_beDec (tag : List Byte) :
    tagValue tag = beDec (tag ++ List.replicate (4 - tag.length) 0) := by
  rw [beDec_append, beDec_zeros, List.length_replicate, tagValue, foldl_eq_beDec, Nat.mul_zero, Nat.zero_add,
    Nat.add_zero]

theorem length_padded (h : tag.length ≤ 4) : (tag ++ List.replicate (4 - tag.length) (0 : Byte)).length = 4 := by
  rw [List.length_append, List.length_replicate]
  omega

theorem tagValue_lt (h : tag.length ≤ 4) : tagValue tag < 2 ^ 32 := by
  rw [tagValue_eq_beDec]
  exact (beDec_lt _).trans_eq (by rw [length_padded h]; rfl)

theorem beEnc_tagValue (h : tag.length ≤ 4) :
    beEnc (tagValue tag) 4 = tag ++ List.replicate (4 - tag.length) 0 := by
  have hbytes := beEnc_beDec (tag ++ List.replicate (4 - tag.length) 0)
  rwa [length_padded h, ← tagValue_eq_beDec] at hbytes

/-! ## The Tag variant in `REFID` (R22) -/

section
variable {v : Nat} (hv : v < 2 ^ 32) (f : Fields)
include hv

theorem refIdIsTag_of_tag : (f.set .refId ((BitVec.ofNat 128 (2 ^ 32 + v)).setWidth 33)).refIdIsTag = true := by
  change ((BitVec.ofNat 128 (2 ^ 32 + v)).setWidth 33).getLsbD 32 = true
  rw [BitVec.getLsbD_setWidth, BitVec.getLsbD_ofNat, Nat.testBit_two_pow_add_eq, Nat.testBit_lt_two_pow hv]
  rfl

theorem refIdValue_of_tag :
    (f.set .refId ((BitVec.ofNat 128 (2 ^ 32 + v)).setWidth 33)).refIdValue.toNat = v := by
  change (((BitVec.ofNat 128 (2 ^ 32 + v)).setWidth 33).setWidth 32).toNat = v
  rw [BitVec.toNat_setWidth, BitVec.toNat_setWidth, BitVec.toNat_ofNat]
  omega

end

/-- Settles O21: bit 32 of the operand of `WRTAG` is the variant and the number of the tag is the value. -/
theorem pseudoCommandsAreTheirExpansions : Obligations.PseudoCommandsAreTheirExpansions := by
  unfold Obligations.PseudoCommandsAreTheirExpansions
  refine ⟨fun a => ⟨formatR_one .ldu a, formatR_one .stu a⟩, fun tag s h => ?_⟩
  have hv := tagValue_lt h
  refine ⟨.wrf 8, BitVec.ofNat 128 (2 ^ 32 + tagValue tag), _, if_pos h, rfl, ?_, exec_wrf_eq 8 .refId _ rfl, rfl,
    refIdIsTag_of_tag hv s.f, ?_⟩
  · rw [BitVec.toNat_ofNat, ← tagValue_eq_shift]
    omega
  · exact (congrArg (beEnc · 4) (refIdValue_of_tag hv s.f)).trans (beEnc_tagValue h)

end Sys2Proof.Machine
end

section
/-! The primitive codec, and its agreement with `DECODE` (R100 to R108): what a store leaves at each offset, and
what a load makes of the bytes at its offset. -/

namespace Sys2Proof.Machine

/-! ## Stores -/

section
variable {m : Memory} {s : State} {a : Nat} {bs : List Byte}

/-- The byte at place `i` of a store, read back. -/
theorem read_writeBytes_of_getElem? (hm : m.wf = true) (ha : a + bs.length ≤ 68) {i : Nat} {b : Byte}
    (hb : bs[i]? = some b) : (m.writeBytes a bs).read (a + i) = b := by
  obtain ⟨hi, -⟩ := List.getElem?_eq_some_iff.1 hb
  rw [Memory.read_writeBytes m a bs _ ha hm, if_pos (by omega), Nat.add_sub_cancel_left,
    List.getD_eq_getElem?_getD, hb, Option.getD_some]

/-- Two buffers agree after the same store at the offsets it names. -/
theorem read_writeBytes_agree {m' : Memory} (hm : m.wf = true) (hm' : m'.wf = true) (ha : a + bs.length ≤ 68)
    {x : Nat} (hlo : a ≤ x) (hhi : x < a + bs.length) :
    (m.writeBytes a bs).read x = (m'.writeBytes a bs).read x := by
  rw [Memory.read_writeBytes m a bs x ha hm, Memory.read_writeBytes m' a bs x ha hm', if_pos ⟨hlo, hhi⟩,
    if_pos ⟨hlo, hhi⟩]

/-- A completed store of `n` bytes leaves the rest alone (R107). -/
theorem storeFrame_writeBytes (hs : s.buf.wf = true) {n : Nat} (hn : bs.length = n) (ha : a + n ≤ 68) :
    StoreFrame s ((s.setBuf (s.buf.writeBytes a bs)).setErr .ok) a n := by
  subst hn
  refine ⟨rfl, rfl, rfl, rfl, rfl, rfl, rfl, fun x hx => ?_⟩
  exact (Memory.read_writeBytes s.buf a bs x ha hs).trans (if_neg hx)

end

/-- Encoding `n` bytes of the operand drops the bits above them by itself. -/
theorem beEnc_opaBytes (s : State) (n : Nat) : beEnc (s.opaBytes n) n = beEnc s.opa.toNat n := by
  rw [State.opaBytes, two_pow_eight_mul, beEnc_mod _ _ _ le_rfl]

/-- Byte `k` of a number, counted from the low end. -/
theorem toNat_byte (v k : Nat) : (BitVec.ofNat 8 (v >>> (8 * k))).toNat = v / 256 ^ k % 256 := by
  rw [BitVec.toNat_ofNat, Nat.shiftRight_eq_div_pow, two_pow_eight_mul]

/-- The text bytes of `STB` come first (R103). -/
theorem getElem?_paddedText_text (s : State) (w : Nat) {n i : Nat} (hi : i < n) :
    (paddedText s w n)[i]? = some (BitVec.ofNat 8 (s.opa.toNat >>> (8 * (n - 1 - i)))) := by
  rw [paddedText, beEnc_opaBytes, List.getElem?_append_left (by rwa [length_beEnc]), getElem?_beEnc _ _ _ hi]

/-- Zeros follow the text of `STB` (R103). -/
theorem getElem?_paddedText_padding (s : State) {w n i : Nat} (hn : n ≤ i) (hi : i < w) :
    (paddedText s w n)[i]? = some 0 := by
  rw [paddedText, List.getElem?_append_right (by rwa [length_beEnc]), length_beEnc,
    List.getElem?_replicate_of_lt (by omega)]

/-- The bytes `STB` stores depend on the operand alone. -/
theorem paddedText_congr {s s' : State} (h : s.opa = s'.opa) (w n : Nat) :
    paddedText s w n = paddedText s' w n := by
  rw [paddedText, paddedText, beEnc_opaBytes, beEnc_opaBytes, h]

/-- Settles O29. -/
theorem stuStoresBigEndian : Obligations.StuStoresBigEndian := by
  unfold Obligations.StuStoresBigEndian
  intro a w s hs hw ha
  rw [exec_stu_eq a w s hw ha, beEnc_opaBytes]
  refine ⟨_, rfl, rfl, storeFrame_writeBytes hs (length_beEnc _ _) ha, fun i hi => ?_⟩
  have hread := read_writeBytes_of_getElem? hs (by rwa [length_beEnc]) (getElem?_beEnc s.opa.toNat _ i hi)
  exact (congrArg BitVec.toNat hread).trans (toNat_byte _ _)

/-- Settles O32. -/
theorem stbStoresTextLeftJustified : Obligations.StbStoresTextLeftJustified := by
  unfold Obligations.StbStoresTextLeftJustified
  intro a w n s hs hw ha hn
  have hlen := length_paddedText s _ _ hn
  refine ⟨_, exec_stb_eq a w n s hw ha hn, rfl, storeFrame_writeBytes hs hlen ha, fun i hi => ?_, fun i hlo hhi => ?_⟩
  · have hread := read_writeBytes_of_getElem? hs (by rwa [hlen]) (getElem?_paddedText_text s _ hi)
    exact (congrArg BitVec.toNat hread).trans (toNat_byte _ _)
  · exact read_writeBytes_of_getElem? hs (by rwa [hlen]) (getElem?_paddedText_padding s hlo hhi)

/-! ## Loads -/

/-- A completed command that returns `v` leaves the rest alone (R30, R107). -/
theorem resultFrame_setRes (s : State) (v : Operand) : ResultFrame s ((s.setRes v).setErr .ok) :=
  ⟨rfl, rfl, rfl, rfl, rfl, rfl, fun _ => rfl⟩

/-- The big-endian number of the bytes read is their positional sum (R11, R101). -/
theorem beDec_readBytes (m : Memory) (a w : Nat) :
    beDec (m.readBytes a w) = ∑ i ∈ Finset.range w, (m.read (a + i)).toNat * 256 ^ (w - 1 - i) := by
  induction w generalizing a with
  | zero => rfl
  | succ w ih =>
    rw [Memory.readBytes, beDec, Memory.length_readBytes, ih, Finset.sum_range_succ', Nat.add_comm, Nat.mul_comm]
    refine congrArg₂ (· + ·) (Finset.sum_congr rfl fun i _ => ?_) rfl
    rw [show a + 1 + i = a + (i + 1) by omega, show w - 1 - i = w + 1 - 1 - (i + 1) by omega]

/-- The byte at place `i` of the bytes read is that byte of their number (R104). -/
theorem read_eq_byte_of_beDec (m : Memory) (a w i : Nat) (hi : i < w) :
    m.read (a + i) = BitVec.ofNat 8 (beDec (m.readBytes a w) >>> (8 * (w - 1 - i))) := by
  have hbytes := beEnc_beDec (m.readBytes a w)
  rw [Memory.length_readBytes] at hbytes
  have hbyte := getElem?_beEnc (beDec (m.readBytes a w)) w i hi
  rw [hbytes, Memory.getElem?_readBytes m a w i hi] at hbyte
  exact Option.some.inj hbyte

section
variable {s : State} {a w : Nat}

theorem bufUint_lt : s.bufUint a w < 256 ^ w :=
  (beDec_lt _).trans_eq (by rw [Memory.length_readBytes])

/-- `RES` holds the number of up to 16 bytes without loss. -/
theorem toNat_resUnsigned_bufUint (hw : w ≤ 16) : (resUnsigned (s.bufUint a w)).toNat = s.bufUint a w := by
  refine Nat.mod_eq_of_lt (bufUint_lt.trans_le ?_)
  rw [← two_pow_eight_mul]
  exact Nat.pow_le_pow_right (by decide) (by omega)

theorem bufUint_congr {s' : State} (h : ∀ x, a ≤ x → x < a + w → s.buf.read x = s'.buf.read x) :
    s.bufUint a w = s'.bufUint a w :=
  congrArg beDec (Memory.readBytes_congr _ _ a w h)

end

/-- Settles O30. -/
theorem lduLoadsUnsignedBigEndian : Obligations.LduLoadsUnsignedBigEndian := by
  unfold Obligations.LduLoadsUnsignedBigEndian
  intro a w s hw ha
  exact ⟨_, exec_ldu_eq a w s hw ha, rfl, resultFrame_setRes _ _,
    (toNat_resUnsigned_bufUint hw).trans (beDec_readBytes s.buf _ _)⟩

/-- Settles O31. -/
theorem lds8LoadsSignedByte : Obligations.Lds8LoadsSignedByte := by
  unfold Obligations.Lds8LoadsSignedByte
  intro a s ha
  refine ⟨_, exec_lds8_eq a s ha, rfl, resultFrame_setRes _ _, ?_⟩
  refine (BitVec.toInt_signExtend_of_le (by decide)).trans ?_
  rw [BitVec.toInt_eq_toNat_cond]
  split <;> split <;> omega

/-- Settles O33. -/
theorem ldbLoadsByteString : Obligations.LdbLoadsByteString := by
  unfold Obligations.LdbLoadsByteString
  intro a w s hw ha
  have hnum := toNat_resUnsigned_bufUint (s := s) (a := a.toNat) hw
  refine ⟨_, exec_ldb_eq a w s hw ha, rfl, resultFrame_setRes _ _, fun i hi => ?_, ?_, exec_ldu_eq a w s hw ha⟩
  · calc (resUnsigned (s.bufUint a.toNat w.toNat)).extractLsb' (8 * (w.toNat - 1 - i)) 8
      _ = BitVec.ofNat 8 (s.bufUint a.toNat w.toNat >>> (8 * (w.toNat - 1 - i))) := by
          rw [BitVec.extractLsb', hnum]
      _ = s.buf.read (a.toNat + i) := (read_eq_byte_of_beDec s.buf _ _ i hi).symm
  · exact hnum.trans_lt bufUint_lt

/-! ## Stores and loads together -/

/-- Settles O34: the load reads back the bytes stored, and their number is the operand's low part. -/
theorem lduAfterStuReturnsTruncatedOperand : Obligations.LduAfterStuReturnsTruncatedOperand := by
  unfold Obligations.LduAfterStuReturnsTruncatedOperand
  intro a w s hs hw ha
  refine ⟨_, _, exec_stu_eq a w s hw ha, exec_ldu_eq a w _ hw ha, (toNat_resUnsigned_bufUint hw).trans ?_⟩
  have hback := Memory.readBytes_writeBytes_same s.buf a.toNat (beEnc s.opa.toNat w.toNat)
    (by rwa [length_beEnc]) hs
  rw [length_beEnc] at hback
  rw [State.bufUint, State.setErr_buf, State.setBuf_buf, beEnc_opaBytes, hback, beDec_beEnc, two_pow_eight_mul]

/-- Settles O35: the numbers loaded and the bytes stored are the same in both states. -/
theorem primitiveCommandsReadOnlyWhatTheyName : Obligations.PrimitiveCommandsReadOnlyWhatTheyName := by
  unfold Obligations.PrimitiveCommandsReadOnlyWhatTheyName
  refine fun a w n s s' hw ha => ⟨fun hbytes i hi => ?_, fun hopa hs hs' i hi => ?_⟩
  · have hnum := congrArg resUnsigned (bufUint_congr hbytes)
    simp only [List.mem_append, List.mem_cons, List.not_mem_nil, or_false, List.mem_ite_nil_right] at hi
    obtain (rfl | rfl) | ⟨hw1, rfl⟩ := hi
    · exact ⟨_, _, exec_ldu_eq a w s hw ha, exec_ldu_eq a w s' hw ha, hnum⟩
    · exact ⟨_, _, exec_ldb_eq a w s hw ha, exec_ldb_eq a w s' hw ha, hnum⟩
    · have hbyte := hbytes a.toNat le_rfl (by omega)
      exact ⟨_, _, exec_lds8_eq a s (by omega), exec_lds8_eq a s' (by omega),
        congrArg (BitVec.signExtend 128) hbyte⟩
  · simp only [List.mem_append, List.mem_cons, List.not_mem_nil, or_false, List.mem_ite_nil_right] at hi
    obtain rfl | ⟨hn, rfl⟩ := hi
    · rw [exec_stu_eq a w s hw ha, exec_stu_eq a w s' hw ha, beEnc_opaBytes, beEnc_opaBytes, hopa]
      have hlen := length_beEnc s'.opa.toNat w.toNat
      exact ⟨_, _, rfl, rfl, fun x hlo hhi => read_writeBytes_agree hs hs' (by rwa [hlen]) hlo (by rwa [hlen])⟩
    · rw [exec_stb_eq a w n s hw ha hn, exec_stb_eq a w n s' hw ha hn, paddedText_congr hopa]
      have hlen := length_paddedText s' _ _ hn
      exact ⟨_, _, rfl, rfl, fun x hlo hhi => read_writeBytes_agree hs hs' (by rwa [hlen]) hlo (by rwa [hlen])⟩

/-! ## `DECODE` and the loads at the offsets of the layout (R56, R108) -/

/-- A bit pattern as a result is zero-extended. -/
theorem resUnsigned_toNat {n : Nat} (x : BitVec n) : resUnsigned x.toNat = x.setWidth 128 :=
  BitVec.ofNat_toNat 128 x

theorem resUnsigned_bufUint_one (s : State) (a : Nat) :
    resUnsigned (s.bufUint a 1) = (s.buf.read a).setWidth 128 := by
  rw [State.bufUint, Memory.readBytes, Memory.readBytes, ← resUnsigned_toNat]
  simp [beDec]

theorem resUnsigned_bufUint_four (s : State) (a : Nat) :
    resUnsigned (s.bufUint a 4) = (s.buf.word32 a).setWidth 128 := by
  rw [State.bufUint, ← word32_toNat, resUnsigned_toNat]

/-- The word loaded, presented again as a 32-bit operand, is the word in the buffer. -/
theorem setWidth_resUnsigned_bufUint_four (s : State) (a : Nat) :
    (resUnsigned (s.bufUint a 4)).setWidth 32 = s.buf.word32 a := by
  rw [resUnsigned_bufUint_four, BitVec.setWidth_setWidth_of_le _ (by decide), BitVec.setWidth_eq]

/-- Of a container whose number is not negative, the sign extension adds zeros. -/
theorem signExtend_eq_setWidth {x : BitVec 64} (h : x.toNat < 2 ^ 63) : x.signExtend 128 = x.setWidth 128 :=
  BitVec.signExtend_eq_setWidth_of_msb_false (BitVec.msb_eq_false_iff_two_mul_lt.2 (by omega))

theorem signExtend_qDec (raw : BitVec 32) : (qDec raw).signExtend 128 = (qDec raw).setWidth 128 :=
  signExtend_eq_setWidth (by have := raw.isLt; rw [qDec_toNat]; omega)

theorem signExtend_timestamp (m : Memory) (a : Nat) :
    (m.timestamp a).signExtend 128 = resUnsigned (tsDec (m.readBytes a 8)) := by
  rw [signExtend_eq_setWidth, ← resUnsigned_toNat, timestamp_toNat]
  have := tsDec_lt (m.readBytes a 8)
  rw [timestamp_toNat]
  omega

/-- Settles O57: each register `DECODE` leaves is the byte, word or timestamp that the load of the same offset
returns; the Q32.32 and millisecond containers are never negative, so showing them adds zeros. -/
theorem decodeAgreesWithPrimitiveCommands : Obligations.DecodeAgreesWithPrimitiveCommands := by
  unfold Obligations.DecodeAgreesWithPrimitiveCommands
  intro s hl
  refine ⟨_, exec_decode_eq s hl,
    ⟨_, exec_ldu_eq 1 1 s (by decide) (by decide), resUnsigned_bufUint_one s 1⟩,
    ⟨_, exec_lds8_eq 2 s (by decide), rfl⟩,
    ⟨_, exec_lds8_eq 3 s (by decide), rfl⟩,
    ⟨_, _, exec_ldu_eq 4 4 s (by decide) (by decide), exec_qdec_eq _, ?_⟩,
    ⟨_, exec_ldu_eq 12 4 s (by decide) (by decide), ?_⟩,
    ⟨_, exec_tsdec_eq 16 s (by decide), (signExtend_timestamp s.buf 16).symm⟩,
    fun h68 => ⟨⟨_, exec_ldu_eq 48 4 s (by decide) (by decide), ?_⟩,
      ⟨_, exec_ldb_eq 52 16 s (by decide) (by decide), ?_⟩⟩⟩
  · exact (congrArg (fun raw => (qDec raw).setWidth 128) (setWidth_resUnsigned_bufUint_four s 4)).trans
      (signExtend_qDec _).symm
  · have haddress : ((s.buf.word32 12).setWidth 33).setWidth 128 = (s.buf.word32 12).setWidth 128 :=
      BitVec.setWidth_setWidth (by decide)
    exact (resUnsigned_bufUint_four s 12).trans haddress.symm
  · rw [h68]
    exact resUnsigned_bufUint_four s 48
  · rw [h68]
    exact (BitVec.setWidth_eq _).symm

end Sys2Proof.Machine
end

section
/-! The timestamp codec (R120 to R127): a timestamp as its two words, what each of the four commands returns or
stores, and the two trips over the wire. -/

namespace Sys2Proof.Machine

/-! ## Decoding (R120, R122) -/

/-- A count of `k` ms, in units of 2^-32 s and rounded up, is the least fraction that holds it. -/
theorem ceil_fraction_le_iff (k f : ℕ) : ⌈(k : ℚ) * 2 ^ 32 / 1000⌉ ≤ (f : ℤ) ↔ k * 2 ^ 32 ≤ f * 1000 := by
  rw [Int.ceil_le, div_le_iff₀ (by norm_num)]
  exact_mod_cast Iff.rfl

/-- The fractions that hold `k` whole milliseconds (R120). -/
theorem fraction_millis_eq_iff (k f : ℕ) : f * 1000 / 2 ^ 32 = k ↔
    ⌈(k : ℚ) * 2 ^ 32 / 1000⌉ ≤ (f : ℤ) ∧ (f : ℤ) < ⌈((k : ℚ) + 1) * 2 ^ 32 / 1000⌉ := by
  have hnext := ceil_fraction_le_iff (k + 1) f
  push_cast at hnext
  rw [ceil_fraction_le_iff, ← not_le, hnext]
  omega

/-- A fraction holds less than a second. -/
theorem fraction_millis_lt {f : ℕ} (hf : f < 2 ^ 32) : f * 1000 / 2 ^ 32 < 1000 := by omega

theorem floor_fraction_millis (f : ℕ) : ⌊(f : ℚ) * 1000 / 2 ^ 32⌋ = (f * 1000 / 2 ^ 32 : ℕ) := by
  have hquot : (f : ℚ) * 1000 / 2 ^ 32 = ((f * 1000 : ℤ) : ℚ) / (2 ^ 32 : ℕ) := by norm_num
  rw [hquot, floor_int_div_nat]
  rfl

/-- `ts_dec` of 8 bytes by its two words. -/
theorem tsDec_eq_words {bytes : List Byte} (h : bytes.length = 8) :
    tsDec bytes = beDec (bytes.take 4) * 1000 + beDec (bytes.drop 4) * 1000 / 2 ^ 32 := by
  have hfrac : (bytes.drop 4).take 4 = bytes.drop 4 := List.take_of_length_le (by rw [List.length_drop, h])
  rw [tsDec, hfrac, Nat.mul_comm, Nat.mul_comm Config.msPerS]

/-- `RES` holds a millisecond count of the wire without loss. -/
theorem toNat_resUnsigned_tsDec (bytes : List Byte) : (resUnsigned (tsDec bytes)).toNat = tsDec bytes :=
  Nat.mod_eq_of_lt ((tsDec_lt bytes).trans (by norm_num))

/-- Settles O36: the fraction part is the remainder of the count by a whole second. -/
theorem timestampDecodeFloorsFraction : Obligations.TimestampDecodeFloorsFraction := by
  unfold Obligations.TimestampDecodeFloorsFraction
  intro bytes hlen
  have hwords := tsDec_eq_words hlen
  have hfrac : beDec (bytes.drop 4) < 2 ^ 32 := (beDec_lt _).trans_eq (by rw [List.length_drop, hlen]; rfl)
  have hmillis := fraction_millis_lt hfrac
  have hrem : tsDec bytes % 1000 = beDec (bytes.drop 4) * 1000 / 2 ^ 32 := by omega
  refine ⟨hwords, Nat.le_of_lt_succ (tsDec_lt bytes), fun k => ?_⟩
  rw [hrem, ← fraction_millis_eq_iff]
  exact ⟨fun h => ⟨h ▸ hmillis, h⟩, And.right⟩

/-- Settles O37. -/
theorem tsdecDecodesTimestamp : Obligations.TsdecDecodesTimestamp := by
  unfold Obligations.TsdecDecodesTimestamp
  intro a s ha
  refine ⟨_, exec_tsdec_eq a s ha, rfl, resultFrame_setRes _ _, ?_⟩
  have hres : (resUnsigned (tsDec (s.buf.readBytes a.toNat 8))).toNat =
      beDec (s.buf.readBytes a.toNat 4) * 1000 + beDec (s.buf.readBytes (a.toNat + 4) 4) * 1000 / 2 ^ 32 :=
    (toNat_resUnsigned_tsDec _).trans (tsDec_eq_words (Memory.length_readBytes _ _ _))
  rw [State.setErr_res, State.setRes_res, hres, floor_fraction_millis]
  exact Nat.cast_add _ _

/-! ## Encoding (R121, R123) -/

/-- Settles O38. -/
theorem tsencEncodesTimestamp : Obligations.TsencEncodesTimestamp := by
  unfold Obligations.TsencEncodesTimestamp
  intro a s hs ha
  exact ⟨_, exec_tsenc_eq a s ha, rfl, storeFrame_writeBytes hs (length_tsEnc _) (by omega),
    holdsTimestamp_of_tsEnc _ _ _ (readBytes_tsEnc _ _ _ (by omega) hs)⟩

/-! ## Unix seconds (R124, R125) -/

/-- Settles O39: the sign extension keeps the number, which is the exact one reduced to 64 bits. -/
theorem u2nShiftsToNtpMilliseconds : Obligations.U2nShiftsToNtpMilliseconds := by
  unfold Obligations.U2nShiftsToNtpMilliseconds
  intro s
  have hres : ((BitVec.ofInt 64 (unixToNtpMillis s.opa64.toInt)).signExtend 128).toInt =
      (BitVec.ofInt 64 (unixToNtpMillis s.opa64.toInt)).toInt := BitVec.toInt_signExtend_of_le (by decide)
  refine ⟨_, exec_u2n_eq s, rfl, resultFrame_setRes _ _, hres ▸ BitVec.le_toInt _, hres ▸ BitVec.toInt_lt,
    ?_, fun ⟨hlo, hhi⟩ => ?_⟩
  · rw [State.setErr_res, State.setRes_res, hres, BitVec.toInt_ofInt]
    exact Int.bmod_emod
  · refine hres.trans (BitVec.toInt_ofInt_eq_self (by decide) ?_ ?_)
    · change -2 ^ 63 ≤ (s.opa64.toInt + 2208988800) * 1000
      change -9223374245843575 ≤ s.opa64.toInt at hlo
      omega
    · change (s.opa64.toInt + 2208988800) * 1000 < 2 ^ 63
      change s.opa64.toInt ≤ 9223369827865975 at hhi
      omega

section
variable (x : BitVec 64)

/-- The lower half of what `N2U` returns: no 64-bit count overflows. -/
theorem unixSplit_seconds :
    ((unixSplit x.toInt).extractLsb' 0 64).toInt = x.toInt / 1000 - 2208988800 := by
  have hlo : -2 ^ 63 ≤ x.toInt := x.le_toInt
  have hhi : x.toInt < 2 ^ 63 := x.toInt_lt
  rw [unixSplit, BitVec.extractLsb'_append_eq_right]
  exact BitVec.toInt_ofInt_eq_self (by decide) (by norm_num; omega) (by norm_num; omega)

/-- The upper half of what `N2U` returns. -/
theorem unixSplit_millis : (((unixSplit x.toInt).extractLsb' 64 64).toNat : ℤ) = x.toInt % 1000 := by
  rw [unixSplit, BitVec.extractLsb'_append_eq_left, BitVec.toNat_ofInt]
  norm_num
  omega

/-- The two halves together lose nothing: quotient and remainder by 1000 make up the count. -/
theorem unixSplit_exact :
    (((unixSplit x.toInt).extractLsb' 0 64).toInt : ℚ) + ((unixSplit x.toInt).extractLsb' 64 64).toNat / 1000 =
      (x.toInt : ℚ) / 1000 - 2208988800 := by
  have hcount : x.toInt = 1000 * (((unixSplit x.toInt).extractLsb' 0 64).toInt + 2208988800) +
      ((unixSplit x.toInt).extractLsb' 64 64).toNat := by
    rw [unixSplit_seconds, unixSplit_millis]
    omega
  have hcast := congrArg (Int.cast : ℤ → ℚ) hcount
  push_cast at hcast
  linarith

end

/-- Settles O40. -/
theorem n2uSplitsExactUnixSeconds : Obligations.N2uSplitsExactUnixSeconds := by
  unfold Obligations.N2uSplitsExactUnixSeconds
  intro s
  have hfloor : ⌊(s.opa64.toInt : ℚ) / 1000⌋ = s.opa64.toInt / 1000 := floor_int_div_nat _ 1000
  have hmillis : ((unixSplit s.opa64.toInt).extractLsb' 64 64).toNat < 1000 := by
    have := unixSplit_millis s.opa64
    omega
  exact ⟨_, exec_n2u_eq s, rfl, resultFrame_setRes _ _,
    (unixSplit_seconds s.opa64).trans (congrArg (· - 2208988800) hfloor.symm), hmillis, unixSplit_exact s.opa64⟩

/-! ## Trips over the wire (R126, R127) -/

/-- `TSENC` reads back an operand that presents a nonnegative 64-bit number. -/
theorem toInt_setWidth_ofNat {n : ℕ} (h : n < 2 ^ 63) : ((BitVec.ofNat 128 n).setWidth 64).toInt = n := by
  rw [BitVec.setWidth_ofNat_of_le (by decide), ← BitVec.ofInt_natCast]
  exact BitVec.toInt_ofInt_eq_self (by decide) (by omega) (by exact_mod_cast h)

/-- Settles O41: `TSDEC` reads the bytes `TSENC` wrote. -/
theorem timestampWireTripLosesAtMostOneMillisecond : Obligations.TimestampWireTripLosesAtMostOneMillisecond := by
  unfold Obligations.TimestampWireTripLosesAtMostOneMillisecond
  intro a s ms hs ha hms hopa
  have hcount : s.opa64.toInt = ms := by rw [State.opa64, hopa, toInt_setWidth_ofNat (by omega)]
  refine ⟨_, _, exec_tsenc_eq a s ha, exec_tsdec_eq a _ ha, (toNat_resUnsigned_tsDec _).trans ?_⟩
  rw [State.setErr_buf, State.setBuf_buf, readBytes_tsEnc _ _ _ (by omega) hs, hcount]
  have htrip := tsDec_tsEnc_trip ms
  rw [Int.emod_eq_of_lt (by omega) (by omega), afterTrip] at htrip
  split at htrip <;> split <;> omega

/-- A timestamp stored again over itself: the seconds stay, the fraction is that of its whole milliseconds. -/
theorem words_of_reencoded {m : Memory} {a : ℕ} (hm : m.wf = true) (ha : a + 8 ≤ 68) :
    beDec ((m.writeBytes a (tsEnc (tsDec (m.readBytes a 8)))).readBytes a 4) = beDec (m.readBytes a 4) ∧
    beDec ((m.writeBytes a (tsEnc (tsDec (m.readBytes a 8)))).readBytes (a + 4) 4) =
      beDec (m.readBytes (a + 4) 4) * 1000 / 2 ^ 32 * 2 ^ 32 / 1000 := by
  have hwords := tsEnc_tsDec_words (m.readBytes a 8)
  rw [← readBytes_tsEnc m a _ ha hm] at hwords
  exact hwords

/-- Settles O42: `TSENC` reads back the count that `TSDEC` left in `RES`. -/
theorem timestampReencodingLowersFraction : Obligations.TimestampReencodingLowersFraction := by
  unfold Obligations.TimestampReencodingLowersFraction
  intro a s hs ha
  have hcount : ((resUnsigned (tsDec (s.buf.readBytes a.toNat 8))).setWidth 64).toInt =
      tsDec (s.buf.readBytes a.toNat 8) :=
    toInt_setWidth_ofNat ((tsDec_lt _).trans (by norm_num))
  have henc := exec_tsenc_eq a
    (((s.setRes (resUnsigned (tsDec (s.buf.readBytes a.toNat 8)))).setErr .ok).setOpa
      (resUnsigned (tsDec (s.buf.readBytes a.toNat 8)))) ha
  rw [State.opa64, State.setOpa_opa, hcount] at henc
  obtain ⟨hsec, hfrac⟩ := words_of_reencoded hs (show a.toNat + 8 ≤ 68 by omega)
  obtain ⟨hlower, hupper⟩ := fraction_lowered _ (beDec_four_lt s.buf (a.toNat + 4))
  refine ⟨_, _, exec_tsdec_eq a s ha, henc, hsec, hfrac, hlower.trans_eq ?_, hfrac.trans_le hupper,
    fun h0 => Nat.eq_zero_of_le_zero ((hfrac.trans_le hupper).trans_eq h0)⟩
  exact congrArg (· + 4294968) hfrac.symm

end Sys2Proof.Machine
end

section
/-! The fixed-point codec (R140 to R145): rounding half away from zero on rationals, what `QDEC` and `QENC` each
return, and the two trips over the wire. -/

namespace Sys2Proof.Machine

/-! ## Rounding (R10) -/

/-- `round(q)` is the library's rounding of the magnitude, with the sign of `q` put back. -/
theorem roundHalfAway_eq_sign_mul_round (q : ℚ) : roundHalfAway q = (SignType.sign q : ℤ) * round |q| := by
  rw [round_eq, roundHalfAway]

/-- `round(q)` is a nearest integer. -/
theorem abs_roundHalfAway_sub_le (q : ℚ) : |(roundHalfAway q : ℚ) - q| ≤ 1 / 2 := by
  have hsign : |((SignType.sign q : ℤ) : ℚ)| ≤ 1 := by cases SignType.sign q <;> simp
  have hround : |(round |q| : ℚ) - (|q|)| ≤ 1 / 2 := abs_sub_comm |q| _ ▸ abs_sub_round |q|
  have hsplit : (roundHalfAway q : ℚ) - q = ((SignType.sign q : ℤ) : ℚ) * (round |q| - |q|) := by
    have hself : ((SignType.sign q : ℤ) : ℚ) * |q| = q := by simp
    rw [roundHalfAway_eq_sign_mul_round, Int.cast_mul, mul_sub, hself]
  calc |(roundHalfAway q : ℚ) - q|
    _ = |((SignType.sign q : ℤ) : ℚ)| * |(round |q| : ℚ) - (|q|)| := by rw [hsplit, abs_mul]
    _ ≤ 1 * (1 / 2) := mul_le_mul hsign hround (abs_nonneg _) zero_le_one
    _ = 1 / 2 := one_mul _

/-- An integer is its own nearest one. -/
theorem roundHalfAway_intCast (k : ℤ) : roundHalfAway k = k := by
  have hlt : |(roundHalfAway k : ℚ) - k| < 1 := (abs_roundHalfAway_sub_le k).trans_lt (by norm_num)
  exact sub_eq_zero.1 (Int.abs_lt_one_iff.1 (by exact_mod_cast hlt))

/-- Between 0 and an integer `n`, rounding stays there, both ends included. -/
theorem roundHalfAway_mem_Icc {q : ℚ} {n : ℤ} (h0 : 0 ≤ q) (hn : q < n) : roundHalfAway q ∈ Set.Icc 0 n := by
  obtain ⟨hlo, hhi⟩ := abs_le.1 (abs_roundHalfAway_sub_le q)
  have hlower : ((-1 : ℤ) : ℚ) < roundHalfAway q := by push_cast; linarith
  have hupper : (roundHalfAway q : ℚ) < ((n + 1 : ℤ) : ℚ) := by push_cast; linarith
  exact ⟨Int.cast_lt.1 hlower, Int.lt_add_one_iff.1 (Int.cast_lt.1 hupper)⟩

/-! ## The two conversions (R140, R141) -/

/-- `q_dec` divides the raw word by 65536. -/
theorem seconds_qDec (raw : BitVec 32) : seconds (qDec raw) = (raw.toNat : ℚ) / 65536 := by
  rw [seconds, qDec_toInt]
  push_cast
  ring

/-- `q_enc` then `q_dec`: the word of R141, read unsigned. -/
theorem seconds_qDec_qEnc (x : BitVec 64) : seconds (qDec (qEnc x)) = (q16Word (seconds x) : ℚ) / 65536 := by
  rw [seconds_qDec, ← qEnc_toNat, Int.cast_natCast]

/-- A multiple of 2^-16 is encoded without rounding. -/
theorem q16Word_of_multiple {x : ℚ} {k : ℤ} (h : x = k / 65536) : q16Word x = k % 2 ^ 32 := by
  have hscaled : x * 65536 = k := by rw [h, div_mul_cancel₀ _ (by norm_num)]
  rw [q16Word, hscaled, roundHalfAway_intCast]

/-- An operand read back from a `RES` that holds it zero-extended is unchanged. -/
theorem setWidth_setWidth_operand {w : ℕ} (hw : w ≤ 128) (x : BitVec w) : (x.setWidth 128).setWidth w = x := by
  rw [BitVec.setWidth_setWidth_of_le _ hw, BitVec.setWidth_eq]

/-! ## What each command returns (R142, R143) -/

/-- Settles O43: the container is never negative, so that `RES` holds it as an unsigned and a signed number. -/
theorem qdecDividesRawBy65536 : Obligations.QdecDividesRawBy65536 := by
  unfold Obligations.QdecDividesRawBy65536
  intro s
  have hunsigned : ((qDec s.opa32).setWidth 128).toNat = s.opa32.toNat * 65536 := by
    rw [BitVec.toNat_setWidth_of_le (by decide), qDec_toNat]
  have hsigned : ((qDec s.opa32).setWidth 128).toInt = (qDec s.opa32).toInt := by
    rw [← signExtend_qDec, BitVec.toInt_signExtend_of_le (by decide)]
  have hraw : s.opa32.toNat = s.opa.toNat % 2 ^ 32 := BitVec.toNat_setWidth 32 s.opa
  refine ⟨_, exec_qdec_eq s, rfl, resultFrame_setRes _ _, ?_, ?_, ?_⟩
  · rw [State.setErr_res, State.setRes_res, hunsigned, hraw]
    rfl
  · rw [State.setErr_res, State.setRes_res, hsigned, ← hraw]
    exact seconds_qDec s.opa32
  · rw [State.setErr_res, State.setRes_res, hsigned, qDec_toInt]
    positivity

/-- Settles O44. -/
theorem qencRoundsHalfAwayAndMasks : Obligations.QencRoundsHalfAwayAndMasks := by
  unfold Obligations.QencRoundsHalfAwayAndMasks
  intro s
  refine ⟨_, exec_qenc_eq s, rfl, resultFrame_setRes _ _, ?_⟩
  rw [State.setErr_res, State.setRes_res, BitVec.toNat_setWidth_of_le (by decide)]
  exact qEnc_toNat s.opa64

/-! ## Trips over the wire (R144, R145) -/

/-- `QDEC` then `QENC` of its result leaves the raw word. -/
theorem exec_qdec_then_qenc (s : State) :
    ∃ t u, exec .qdec s = .next t ∧ exec .qenc { t with opa := t.res } = .next u ∧
      u.res = s.opa32.setWidth 128 := by
  refine ⟨_, _, exec_qdec_eq s, exec_qenc_eq _, ?_⟩
  change (qEnc (((qDec s.opa32).setWidth 128).setWidth 64)).setWidth 128 = s.opa32.setWidth 128
  rw [setWidth_setWidth_operand (by decide), qEnc_qDec]

/-- `QENC` then `QDEC` of its result leaves the container that went over the wire. -/
theorem exec_qenc_then_qdec (s : State) :
    ∃ t u, exec .qenc s = .next t ∧ exec .qdec { t with opa := t.res } = .next u ∧
      u.res = (qDec (qEnc s.opa64)).setWidth 128 := by
  refine ⟨_, _, exec_qenc_eq s, exec_qdec_eq _, ?_⟩
  change (qDec (((qEnc s.opa64).setWidth 128).setWidth 32)).setWidth 128 = _
  rw [setWidth_setWidth_operand (by decide)]

section
variable {x : BitVec 64}

/-- A word of 0 gives a container of 0, as does a value that rounds to 65536 seconds. -/
theorem qDec_qEnc_eq_zero (hround : roundHalfAway (seconds x * 65536) = 65536 * 65536) : qDec (qEnc x) = 0 := by
  have hword : ((qEnc x).toNat : ℤ) = 0 := by rw [qEnc_toNat, q16Word, hround]; rfl
  have hzero : qEnc x = 0 := BitVec.eq_of_toNat_eq (by exact_mod_cast hword)
  rw [hzero]
  rfl

/-- In range, rounding changes a value by at most half a unit of 2^-16, and masking changes nothing below 65536. -/
theorem seconds_qDec_qEnc_of_range (h0 : 0 ≤ seconds x) (hlt : seconds x < 65536)
    (hround : roundHalfAway (seconds x * 65536) ≠ 65536 * 65536) :
    seconds (qDec (qEnc x)) = (roundHalfAway (seconds x * 65536) : ℚ) / 65536 := by
  obtain ⟨hlo, hhi⟩ := roundHalfAway_mem_Icc (q := seconds x * 65536) (n := 65536 * 65536) (by linarith)
    (by push_cast; linarith)
  rw [seconds_qDec_qEnc, q16Word, Int.emod_eq_of_lt hlo (by omega)]

/-- The nearest multiple of 2^-16 is at most half a unit away. -/
theorem abs_rounded_sub_le (y : ℚ) : |(roundHalfAway (y * 65536) : ℚ) / 65536 - y| ≤ 1 / 2 ^ 17 := by
  obtain ⟨hlo, hhi⟩ := abs_le.1 (abs_roundHalfAway_sub_le (y * 65536))
  exact abs_le.2 ⟨by linarith, by linarith⟩

/-- In range, exactly the multiples of 2^-16 come back as they were. -/
theorem seconds_qDec_qEnc_eq_iff (h0 : 0 ≤ seconds x) (hlt : seconds x < 65536) :
    seconds (qDec (qEnc x)) = seconds x ↔ ∃ k : ℤ, seconds x = k / 65536 := by
  constructor
  · intro h
    exact ⟨q16Word (seconds x), h.symm.trans (seconds_qDec_qEnc x)⟩
  · rintro ⟨k, hk⟩
    have hk0 : (0 : ℚ) ≤ k := by linarith
    have hklt : (k : ℚ) < (2 ^ 32 : ℤ) := by push_cast; linarith
    rw [seconds_qDec_qEnc, q16Word_of_multiple hk,
      Int.emod_eq_of_lt (by exact_mod_cast hk0) (by exact_mod_cast hklt), hk]

end

/-- Settles O45. -/
theorem fixedPointRoundTrips : Obligations.FixedPointRoundTrips := by
  unfold Obligations.FixedPointRoundTrips
  constructor
  · intro s
    obtain ⟨t, u, hdec, henc, hres⟩ := exec_qdec_then_qenc s
    refine ⟨t, u, hdec, henc, ?_⟩
    rw [hres, BitVec.toNat_setWidth_of_le (by decide)]
    exact BitVec.toNat_setWidth 32 s.opa
  · intro s h0 hlt
    obtain ⟨t, u, henc, hdec, hres⟩ := exec_qenc_then_qdec s
    refine ⟨t, u, henc, hdec, ?_⟩
    rw [hres, setWidth_setWidth_operand (by decide)]
    refine ⟨fun hround => ?_, fun hround => ?_, seconds_qDec_qEnc_eq_iff h0 hlt⟩
    · exact congrArg (BitVec.setWidth 128) (qDec_qEnc_eq_zero hround)
    · have hback := seconds_qDec_qEnc_of_range h0 hlt hround
      exact ⟨hback, (congrArg (|· - seconds s.opa64|) hback).trans_le (abs_rounded_sub_le _)⟩

/-- Settles O46: masking a negative count of 2^-16 units adds 2^32 units. -/
theorem negativeSecondsComeBackPlus65536 : Obligations.NegativeSecondsComeBackPlus65536 := by
  unfold Obligations.NegativeSecondsComeBackPlus65536
  intro s k hk hlo hneg
  obtain ⟨t, u, henc, hdec, hres⟩ := exec_qenc_then_qdec s
  refine ⟨t, u, henc, hdec, ?_⟩
  have hword : q16Word (seconds s.opa64) = k + 65536 * 65536 := (q16Word_of_multiple hk).trans (by omega)
  rw [hres, setWidth_setWidth_operand (by decide), seconds_qDec_qEnc, hword, hk]
  push_cast
  ring

end Sys2Proof.Machine
end

section
/-! The registers by command (R150 to R154): what `NEW`, `SETLEN`, `WRF` and `RDF` leave. -/

namespace Sys2Proof.Machine

/-! ## A fresh instance (R151, R152) -/

theorem toNat_messageLength (auth : Bool) : (messageLength auth).toNat = 48 + 20 * auth.toNat := by
  cases auth <;> rfl

/-- Four timestamps of 0 read as four unset ones (R28). -/
theorem State.tsUnset_of_unset {s : State} (h : ∀ r ∈ [FieldReg.refTs, .orgTs, .rcvTs, .xmtTs], s.f.get r = 0) :
    s.tsUnset = 0b1111 := by
  have href : s.f.refTs = 0 := h .refTs (by decide)
  have horg : s.f.orgTs = 0 := h .orgTs (by decide)
  have hrcv : s.f.rcvTs = 0 := h .rcvTs (by decide)
  have hxmt : s.f.xmtTs = 0 := h .xmtTs (by decide)
  rw [State.tsUnset, href, horg, hrcv, hxmt]
  decide

/-- Settles O47. -/
theorem newConstructsFreshInstance : Obligations.NewConstructsFreshInstance := by
  unfold Obligations.NewConstructsFreshInstance
  intro a s ha
  refine ⟨_, exec_new_eq a s ha, rfl, Fields.get_zero, Memory.zero_read, beq_iff_eq, ?_,
    State.tsUnset_of_unset fun r _ => Fields.get_zero r, rfl, rfl, rfl, rfl⟩
  refine (toNat_messageLength (a == 1)).trans ?_
  obtain rfl | rfl : a = 0 ∨ a = 1 := by bv_omega
  · rfl
  · rfl

/-- Settles O48. -/
theorem setlenStoresAnyLength : Obligations.SetlenStoresAnyLength := by
  unfold Obligations.SetlenStoresAnyLength
  exact fun l s => ⟨_, exec_setlen_eq l s, rfl, rfl, rfl, rfl, rfl, rfl, rfl, rfl, fun _ => rfl⟩

/-! ## One register (R153, R154) -/

/-- The table of R20, row by row. -/
theorem fieldTable : FieldTable := by
  and_intros <;> intros <;> rfl

/-- Settles O49. -/
theorem wrfWritesOneRegister : Obligations.WrfWritesOneRegister := by
  unfold Obligations.WrfWritesOneRegister
  refine ⟨fieldTable, fun a r s hr => ⟨_, exec_wrf_eq a r s hr, rfl, ?_,
    fun r' hne => Fields.get_set_other s.f r r' _ hne, rfl, rfl, rfl, rfl, rfl, rfl, fun _ => rfl⟩⟩
  rw [State.setErr_f, State.setF_f, Fields.get_set_same, BitVec.toNat_setWidth]

theorem FieldReg.width_le (r : FieldReg) : r.width ≤ 128 := by
  cases r <;> decide

/-- The signed rows of the table of R20, by index. -/
theorem FieldReg.signed_iff (r : FieldReg) : r.signed = true ↔ r.index ∈ [4, 5, 6, 7, 9, 10, 11, 12] := by
  cases r <;> decide

/-- A signed register keeps its number under sign extension. -/
theorem Fields.toInt_show128 (f : Fields) {r : FieldReg} (h : r.signed = true) :
    (f.show128 r).toInt = (f.get r).toInt := by
  rw [Fields.show128, if_pos h, BitVec.toInt_signExtend_of_le r.width_le]

/-- An unsigned register keeps its number under zero extension. -/
theorem Fields.toNat_show128 (f : Fields) {r : FieldReg} (h : ¬ r.signed = true) :
    (f.show128 r).toNat = (f.get r).toNat := by
  rw [Fields.show128, if_neg h, BitVec.toNat_setWidth_of_le r.width_le]

/-- Settles O50. -/
theorem rdfShowsRegisterByKind : Obligations.RdfShowsRegisterByKind := by
  unfold Obligations.RdfShowsRegisterByKind
  exact ⟨fieldTable, fun a r s hr => ⟨_, exec_rdf_eq a r s hr, rfl, resultFrame_setRes _ _,
    fun hsigned => s.f.toInt_show128 (r.signed_iff.2 hsigned),
    fun hunsigned => s.f.toNat_show128 (mt r.signed_iff.1 hunsigned)⟩⟩

end Sys2Proof.Machine
end

section
/-! The message codec (R155 to R159): the fields `DECODE` reads at each offset of the layout, the bytes `ENCODE`
writes there, and the trips both ways. -/

namespace Sys2Proof.Machine

/-! ## Decode (R155) -/

/-- A zero-extended word has the Address variant (R22). -/
theorem getLsbD_setWidth_word (x : BitVec 32) : (x.setWidth 33).getLsbD 32 = false := by
  rw [BitVec.getLsbD_setWidth, BitVec.getLsbD_of_ge x 32 le_rfl, Bool.and_false]

section
variable (m : Memory) (auth : Bool)

theorem decodeFields_refIdIsTag : (decodeFields m auth).refIdIsTag = false := getLsbD_setWidth_word _

theorem decodeFields_refIdValue : (decodeFields m auth).refIdValue = m.word32 12 := by
  rw [Fields.refIdValue, decodeFields, BitVec.setWidth_setWidth_of_le _ (by decide), BitVec.setWidth_eq]

theorem decodeFields_keyId_digest_plain : (decodeFields m false).keyId = 0 ∧ (decodeFields m false).digest = 0 :=
  ⟨rfl, rfl⟩

theorem decodeFields_keyId_digest_auth :
    (decodeFields m true).keyId.toNat = beDec (m.readBytes 48 4) ∧
      (decodeFields m true).digest.toNat = beDec (m.readBytes 52 16) :=
  ⟨word32_toNat m 48, digest_toNat m⟩

theorem toNat_qDec_word32 (a : Nat) : (qDec (m.word32 a)).toNat = beDec (m.readBytes a 4) * 2 ^ 16 :=
  (qDec_toNat _).trans (congrArg (· * 65536) (word32_toNat m a))

end

/-- Settles O51. -/
theorem decodeReplacesAllFieldsFromLayout : Obligations.DecodeReplacesAllFieldsFromLayout := by
  unfold Obligations.DecodeReplacesAllFieldsFromLayout
  intro s hl
  obtain ⟨hli, hvn, hmode⟩ := byteZero_fields (s.buf.read 0)
  refine ⟨_, exec_decode_eq s hl, rfl, beq_iff_eq, hli, hvn, hmode, rfl, rfl, rfl, toNat_qDec_word32 _ 4,
    toNat_qDec_word32 _ 8, decodeFields_refIdIsTag _ _, ?_, timestamp_toNat _ 16, timestamp_toNat _ 24,
    timestamp_toNat _ 32, timestamp_toNat _ 40, fun h68 => ?_, fun h48 => ?_, rfl, rfl, rfl, rfl, rfl, fun _ => rfl⟩
  · exact (congrArg BitVec.toNat (decodeFields_refIdValue _ _)).trans (word32_toNat _ 12)
  · rw [h68]
    exact decodeFields_keyId_digest_auth s.buf
  · rw [h48]
    exact decodeFields_keyId_digest_plain s.buf

/-! ## Encode (R156) -/

/-- Bytes wide enough for a bit pattern hold its number. -/
theorem beDec_beEnc_toNat (w : Nat) (x : BitVec (8 * w)) : beDec (beEnc x.toNat w) = x.toNat := by
  rw [beDec_beEnc, ← two_pow_eight_mul, Nat.mod_eq_of_lt x.isLt]

/-- The word of R141 in four bytes. -/
theorem beDec_of_qEnc {bytes : List Byte} {x : BitVec 64} (h : bytes = beEnc (qEnc x).toNat 4) :
    (beDec bytes : ℤ) = q16Word (seconds x) := by
  rw [h, beDec_beEnc_toNat 4, qEnc_toNat]

/-- Offsets 0..47 of an encoded message of either variant. -/
theorem encodedAs_encodeMessage (f : Fields) (auth : Bool) : EncodedAs (encodeMessage f auth) f :=
  (encodeMessage_bytes f auth).1

/-- Settles O52. -/
theorem encodeWritesLayoutFromFields : Obligations.EncodeWritesLayoutFromFields := by
  unfold Obligations.EncodeWritesLayoutFromFields
  intro s
  obtain ⟨henc, hplain, hbeyond, hauth⟩ := encodeMessage_bytes s.f s.auth
  refine ⟨_, exec_encode_eq s, rfl, rfl, (congrArg BitVec.toNat henc.b0).trans (headerByte_toNat s.f), henc.b1,
    henc.b2, henc.b3, beDec_of_qEnc henc.d, beDec_of_qEnc henc.p, ?_, holdsTimestamp_of_tsEnc _ _ _ henc.t1,
    holdsTimestamp_of_tsEnc _ _ _ henc.t2, holdsTimestamp_of_tsEnc _ _ _ henc.t3, holdsTimestamp_of_tsEnc _ _ _ henc.t4,
    fun h1 => ?_, hplain, hbeyond, rfl, rfl, rfl, rfl, rfl, rfl⟩
  · exact (congrArg beDec henc.r).trans ((beDec_beEnc_toNat 4 _).trans (BitVec.toNat_setWidth 32 s.f.refId))
  · obtain ⟨hkey, hdigest⟩ := hauth h1
    exact ⟨(congrArg beDec hkey).trans (beDec_beEnc_toNat 4 _),
      (congrArg beDec hdigest).trans (beDec_beEnc_toNat 16 _)⟩

/-! ## What does not reach the wire (R155, R156, R159) -/

/-- Of `REFID` a message holds the value alone. -/
theorem encodeMessage_set_refId (f : Fields) (auth : Bool) {v w : BitVec 33} (h : v.setWidth 32 = w.setWidth 32) :
    encodeMessage (f.set .refId v) auth = encodeMessage (f.set .refId w) auth := by
  simp only [encodeMessage, encodePlain, Fields.set, Fields.headerByte, Fields.refIdValue, h]

/-- Settles O53. -/
theorem referenceVariantNeverReachesWire : Obligations.ReferenceVariantNeverReachesWire := by
  unfold Obligations.ReferenceVariantNeverReachesWire
  intro s v w h
  have hvalue : v.setWidth 32 = w.setWidth 32 :=
    BitVec.eq_of_toNat_eq (by rw [BitVec.toNat_setWidth, BitVec.toNat_setWidth, h])
  refine ⟨_, _, exec_encode_eq _, exec_encode_eq _, encodeMessage_set_refId s.f s.auth hvalue, ?_⟩
  have hbytes := (encodedAs_encodeMessage (s.f.set .refId v) s.auth).r
  exact hbytes.trans (congrArg (beEnc · 4) (BitVec.toNat_setWidth 32 v))

/-- The fields of a plain message are read from offsets 0..47. -/
theorem decodeFields_plain_congr {m m' : Memory} (h : ∀ x, x < 48 → m.read x = m'.read x) :
    decodeFields m false = decodeFields m' false := by
  have hbytes (a n : Nat) (ha : a + n ≤ 48) : m.readBytes a n = m'.readBytes a n :=
    Memory.readBytes_congr m m' a n fun x _ hx => h x (by omega)
  simp (disch := decide) only [decodeFields, Memory.word32, Memory.timestamp, h, hbytes, Bool.false_eq_true, if_false]

/-- A plain message holds neither `KEYID` nor `DIGEST`. -/
theorem encodeMessage_plain_set (f : Fields) (k : BitVec 32) (d : BitVec 128) :
    encodeMessage ((f.set .keyId k).set .digest d) false = encodeMessage f false := by
  simp only [encodeMessage, encodePlain, Fields.set, Fields.headerByte, Fields.refIdValue, Bool.false_eq_true, if_false]

/-- Settles O56. -/
theorem plainVariantIgnoresAuthentication : Obligations.PlainVariantIgnoresAuthentication := by
  unfold Obligations.PlainVariantIgnoresAuthentication
  refine ⟨fun s m h48 hm => ⟨_, _, exec_decode_eq s (.inl h48), exec_decode_eq _ (.inl h48), ?_⟩,
    fun s k d h0 => ⟨_, _, exec_encode_eq s, exec_encode_eq _, ?_⟩⟩
  · rw [h48]
    exact decodeFields_plain_congr hm
  · change encodeMessage ((s.f.set .keyId k).set .digest d) s.auth = encodeMessage s.f s.auth
    rw [h0, encodeMessage_plain_set]

/-! ## Encode, then decode (R158) -/

theorem lengthOk_of_messageLength {s : State} {auth : Bool} (h : s.buflen = messageLength auth) : s.lengthOk := by
  cases auth
  · exact .inl h
  · exact .inr h

theorem messageLength_beq (auth : Bool) : (messageLength auth == 68) = auth := by
  cases auth <;> rfl

/-- A message `ENCODE` wrote passes the length gate of `DECODE`, as the variant it was written in. -/
theorem exec_encode_then_decode (s : State) :
    ∃ t u, exec .encode s = .next t ∧ exec .decode t = .next u ∧ u.err = .ok ∧
      u.f = decodeFields (encodeMessage s.f s.auth) s.auth ∧ u.auth = s.auth ∧ u.buflen = messageLength s.auth := by
  refine ⟨_, _, exec_encode_eq s, exec_decode_eq _ (lengthOk_of_messageLength rfl), rfl, ?_,
    messageLength_beq s.auth, rfl⟩
  exact congrArg (decodeFields _) (messageLength_beq s.auth)

section
variable {m : Memory} {f : Fields}

theorem word32_of_beEnc {a : Nat} {x : BitVec 32} (h : m.readBytes a 4 = beEnc x.toNat 4) : m.word32 a = x :=
  BitVec.eq_of_toNat_eq (by rw [word32_toNat, h, beDec_beEnc_toNat 4])

theorem timestamp_toInt (m : Memory) (a : Nat) : (m.timestamp a).toInt = tsDec (m.readBytes a 8) := by
  have hlt := tsDec_lt (m.readBytes a 8)
  rw [BitVec.toInt_eq_toNat_of_lt (by rw [timestamp_toNat]; omega), timestamp_toNat]

theorem timestamp_of_tsEnc {a : Nat} {ms : Int} (h : m.readBytes a 8 = tsEnc ms) :
    (m.timestamp a).toInt = afterTrip (ms % 4294967296000) := by
  rw [timestamp_toInt, h, tsDec_tsEnc_trip]

/-- `LI`, `VN` and `MODE` come back reduced to the bits byte 0 has for them. -/
theorem EncodedAs.header_trip (h : EncodedAs m f) (auth : Bool) :
    (decodeFields m auth).li.toNat = f.li.toNat % 4 ∧ (decodeFields m auth).vn.toNat = f.vn.toNat % 8 ∧
      (decodeFields m auth).mode.toNat = f.mode.toNat % 8 := by
  obtain ⟨hli, hvn, hmode⟩ := byteZero_fields (m.read 0)
  have hbyte := (congrArg BitVec.toNat h.b0).trans (headerByte_toNat f)
  refine ⟨hli.trans ?_, hvn.trans ?_, hmode.trans ?_⟩ <;> omega

theorem EncodedAs.seconds_trip (h : EncodedAs m f) (auth : Bool) :
    seconds (decodeFields m auth).rootDelay = (q16Word (seconds f.rootDelay) : ℚ) / 65536 ∧
      seconds (decodeFields m auth).rootDisp = (q16Word (seconds f.rootDisp) : ℚ) / 65536 := by
  simp only [decodeFields, word32_of_beEnc h.d, word32_of_beEnc h.p, seconds_qDec_qEnc, and_self]

theorem EncodedAs.refIdValue_trip (h : EncodedAs m f) (auth : Bool) :
    (decodeFields m auth).refIdValue = f.refIdValue :=
  (decodeFields_refIdValue m auth).trans (word32_of_beEnc h.r)

/-- Each timestamp is wrapped into the range of the wire and comes back at most 1 ms smaller (R126). -/
theorem EncodedAs.timestamp_trip (h : EncodedAs m f) (auth : Bool) :
    ∀ r ∈ [FieldReg.refTs, .orgTs, .rcvTs, .xmtTs],
      ((decodeFields m auth).get r).toInt = afterTrip ((f.get r).toInt % 4294967296000) := by
  simp only [List.forall_mem_cons, List.not_mem_nil, false_imp_iff, implies_true, and_true]
  exact ⟨timestamp_of_tsEnc h.t1, timestamp_of_tsEnc h.t2, timestamp_of_tsEnc h.t3, timestamp_of_tsEnc h.t4⟩

end

theorem encodeMessage_keyId_digest_trip (f : Fields) :
    (decodeFields (encodeMessage f true) true).keyId = f.keyId ∧
      (decodeFields (encodeMessage f true) true).digest = f.digest := by
  obtain ⟨-, -, -, hauth⟩ := encodeMessage_bytes f true
  obtain ⟨hkey, hdigest⟩ := hauth rfl
  refine ⟨word32_of_beEnc hkey, BitVec.eq_of_toNat_eq ((digest_toNat _).trans ?_)⟩
  rw [hdigest, beDec_beEnc_toNat 16]

/-- Settles O54. -/
theorem encodeThenDecodeRoundTrip : Obligations.EncodeThenDecodeRoundTrip := by
  unfold Obligations.EncodeThenDecodeRoundTrip
  intro s
  obtain ⟨t, u, henc, hdec, herr, hf, hauth, hlen⟩ := exec_encode_then_decode s
  have hmsg := encodedAs_encodeMessage s.f s.auth
  obtain ⟨hli, hvn, hmode⟩ := hmsg.header_trip s.auth
  obtain ⟨hdelay, hdisp⟩ := hmsg.seconds_trip s.auth
  have hts := hmsg.timestamp_trip s.auth
  refine ⟨t, u, henc, hdec, herr, ?_⟩
  rw [hf]
  refine ⟨hli, hvn, hmode, hmsg.b1, hmsg.b2, hmsg.b3, hdelay, hdisp, decodeFields_refIdIsTag _ _,
    hmsg.refIdValue_trip _, fun r hr h0 hlt => ?_, hts, fun h1 => ?_, fun h0 => ?_, hauth, hlen⟩
  · rw [hts r hr, Int.emod_eq_of_lt h0 hlt]
  · rw [h1]
    exact encodeMessage_keyId_digest_trip s.f
  · rw [h0]
    exact decodeFields_keyId_digest_plain _

/-! ## Decode, then encode (R158) -/

/-- A message of an accepted length has the length of its variant. -/
theorem messageLength_of_lengthOk {s : State} (h : s.lengthOk) : messageLength (s.buflen == 68) = s.buflen := by
  obtain h48 | h68 := h
  · rw [h48]; rfl
  · rw [h68]; rfl

theorem exec_decode_then_encode {s : State} (hl : s.lengthOk) :
    ∃ t u, exec .decode s = .next t ∧ exec .encode t = .next u ∧ u.err = .ok ∧ u.buflen = s.buflen ∧
      u.buf = encodeMessage (decodeFields s.buf (s.buflen == 68)) (s.buflen == 68) :=
  ⟨_, _, exec_decode_eq s hl, exec_encode_eq _, rfl, messageLength_of_lengthOk hl, rfl⟩

/-- The byte at an offset inside a range that reads the same. -/
theorem read_eq_of_readBytes_eq {m m' : Memory} {a n x : Nat} (h : m.readBytes a n = m'.readBytes a n) (hlo : a ≤ x)
    (hhi : x < a + n) : m.read x = m'.read x := by
  obtain ⟨i, rfl⟩ := Nat.exists_eq_add_of_le hlo
  have hi : i < n := by omega
  have hbyte := congrArg (·[i]?) h
  simp only [Memory.getElem?_readBytes _ _ _ _ hi] at hbyte
  exact Option.some.inj hbyte

/-- Bytes of one length that hold the same number are the same (R11). -/
theorem eq_of_beDec_eq {bs cs : List Byte} (hlen : bs.length = cs.length) (h : beDec bs = beDec cs) : bs = cs := by
  rw [← beEnc_beDec bs, ← beEnc_beDec cs, h, hlen]

section
variable {m m' : Memory}

/-- The bytes a number was read from. -/
theorem beEnc_beDec_readBytes (m : Memory) (a n : Nat) : beEnc (beDec (m.readBytes a n)) n = m.readBytes a n := by
  have hbytes := beEnc_beDec (m.readBytes a n)
  rwa [Memory.length_readBytes] at hbytes

theorem beEnc_word32 (m : Memory) (a : Nat) : beEnc (m.word32 a).toNat 4 = m.readBytes a 4 := by
  rw [word32_toNat, beEnc_beDec_readBytes]

theorem headerByte_decodeFields (m : Memory) (auth : Bool) : (decodeFields m auth).headerByte = m.read 0 := by
  obtain ⟨hli, hvn, hmode⟩ := byteZero_fields (m.read 0)
  have hlt := (m.read 0).isLt
  apply BitVec.eq_of_toNat_eq
  rw [headerByte_toNat]
  change ((m.read 0 &&& 0xC0) >>> 6).toNat % 4 * 64 + ((m.read 0 &&& 0x38) >>> 3).toNat % 8 * 8 +
    (m.read 0 &&& 7).toNat % 8 = _
  omega

/-- A timestamp written again: the seconds stay, the fraction is that of its whole milliseconds (R127). -/
theorem words_of_tsEnc_timestamp {a : Nat} (h : m'.readBytes a 8 = tsEnc (m.timestamp a).toInt) :
    m'.readBytes a 4 = m.readBytes a 4 ∧
      beDec (m'.readBytes (a + 4) 4) = beDec (m.readBytes (a + 4) 4) * 1000 / 2 ^ 32 * 2 ^ 32 / 1000 := by
  obtain ⟨hsec, hfrac⟩ := tsEnc_tsDec_words (m.readBytes a 8)
  rw [← timestamp_toInt, ← h] at hsec hfrac
  exact ⟨eq_of_beDec_eq (by simp) hsec, hfrac⟩

/-- The words of a plain message that a trip through the registers reproduces: all but the fractions. -/
theorem EncodedAs.words_kept {auth : Bool} (h : EncodedAs m' (decodeFields m auth)) :
    ∀ a ∈ [0, 4, 8, 12, 16, 24, 32, 40], m'.readBytes a 4 = m.readBytes a 4 := by
  have hheader : m'.readBytes 0 4 = m.readBytes 0 4 := by
    simp only [Memory.readBytes, h.b0, h.b1, h.b2, h.b3, headerByte_decodeFields]
    rfl
  have hrefId := h.r
  have hdelay := h.d
  have hdisp := h.p
  rw [decodeFields_refIdValue] at hrefId
  simp only [decodeFields, qEnc_qDec] at hdelay hdisp
  simp only [List.forall_mem_cons, List.not_mem_nil, false_imp_iff, implies_true, and_true]
  exact ⟨hheader, hdelay.trans (beEnc_word32 m 4), hdisp.trans (beEnc_word32 m 8), hrefId.trans (beEnc_word32 m 12),
    (words_of_tsEnc_timestamp h.t1).1, (words_of_tsEnc_timestamp h.t2).1, (words_of_tsEnc_timestamp h.t3).1,
    (words_of_tsEnc_timestamp h.t4).1⟩

theorem EncodedAs.fractions_lowered {auth : Bool} (h : EncodedAs m' (decodeFields m auth)) :
    ∀ a ∈ [20, 28, 36, 44], beDec (m'.readBytes a 4) = beDec (m.readBytes a 4) * 1000 / 2 ^ 32 * 2 ^ 32 / 1000 := by
  simp only [List.forall_mem_cons, List.not_mem_nil, false_imp_iff, implies_true, and_true]
  exact ⟨(words_of_tsEnc_timestamp h.t1).2, (words_of_tsEnc_timestamp h.t2).2, (words_of_tsEnc_timestamp h.t3).2,
    (words_of_tsEnc_timestamp h.t4).2⟩

end

/-- A trip through the registers reproduces `KEYID` and `DIGEST`. -/
theorem encodeMessage_decodeFields_auth (m : Memory) :
    (encodeMessage (decodeFields m true) true).readBytes 48 4 = m.readBytes 48 4 ∧
      (encodeMessage (decodeFields m true) true).readBytes 52 16 = m.readBytes 52 16 := by
  obtain ⟨-, -, -, hauth⟩ := encodeMessage_bytes (decodeFields m true) true
  obtain ⟨hkey, hdigest⟩ := hauth rfl
  obtain ⟨hkeyNum, hdigestNum⟩ := decodeFields_keyId_digest_auth m
  rw [hkeyNum, beEnc_beDec_readBytes] at hkey
  rw [hdigestNum, beEnc_beDec_readBytes] at hdigest
  exact ⟨hkey, hdigest⟩

/-- Below offset 48 a byte outside the fractions lies in one of the words that are reproduced. -/
theorem read_kept_plain (m : Memory) (auth : Bool) {x : Nat} (hx : x < 48)
    (hfrac : ¬ (16 ≤ x ∧ x < 48 ∧ 4 ≤ x % 8)) :
    (encodeMessage (decodeFields m auth) auth).read x = m.read x := by
  have hword : 4 * (x / 4) ∈ [0, 4, 8, 12, 16, 24, 32, 40] := by
    simp only [List.mem_cons, List.not_mem_nil, or_false]
    omega
  exact read_eq_of_readBytes_eq ((encodedAs_encodeMessage _ auth).words_kept _ hword) (by omega) (by omega)

theorem read_kept_auth (m : Memory) {x : Nat} (hlo : 48 ≤ x) (hhi : x < 68) :
    (encodeMessage (decodeFields m true) true).read x = m.read x := by
  obtain ⟨hkey, hdigest⟩ := encodeMessage_decodeFields_auth m
  obtain hx | hx := Nat.lt_or_ge x 52
  · exact read_eq_of_readBytes_eq hkey hlo hx
  · exact read_eq_of_readBytes_eq hdigest hx hhi

/-- Settles O55. -/
theorem decodeThenEncodeRoundTrip : Obligations.DecodeThenEncodeRoundTrip := by
  unfold Obligations.DecodeThenEncodeRoundTrip
  intro s hl
  obtain ⟨t, u, hdec, henc, herr, hlen, hbuf⟩ := exec_decode_then_encode hl
  refine ⟨t, u, hdec, henc, herr, hlen, ?_⟩
  rw [hbuf]
  refine ⟨fun x hx hfrac => ?_, fun o ho => ?_⟩
  · obtain hplain | hauth := Nat.lt_or_ge x 48
    · exact read_kept_plain s.buf _ hplain hfrac
    · obtain h48 | h68 := hl
      · rw [h48] at hx
        exact absurd hx (Nat.not_lt.2 hauth)
      · rw [h68] at hx ⊢
        exact read_kept_auth s.buf hauth hx
  · have hmsg := encodedAs_encodeMessage (decodeFields s.buf (s.buflen == 68)) (s.buflen == 68)
    have hword := hmsg.fractions_lowered o ho
    obtain ⟨hlower, hupper⟩ := fraction_lowered _ (beDec_four_lt s.buf o)
    exact ⟨hword, by rwa [hword], by rwa [hword]⟩

end Sys2Proof.Machine
end

section
/-! The host's procedures (R150, R160, R163): a run of presented commands, one step each. -/

namespace Sys2Proof.Machine

/-- A run performs the command presented first, then goes on with the others. -/
theorem run_present {s t : State} {i : Instr} {opa : Operand} {rest : List HostInput}
    (hp : s.pending = Machine.present i opa :: rest) (h : exec i (s.present opa rest) = .next t) (k : Nat) :
    core.run (k + 1) s = core.run k t := by
  have hstep : core.step s = .next t := (step_command hp).trans ((perform_ok (decode_encode i) _).trans h)
  simp only [Host.Core.run, hstep]

/-- `DECODE` of an accepted length, as a step of a run. -/
theorem run_decode {s : State} {rest : List HostInput} (hp : s.pending = Machine.present .decode 0 :: rest)
    (hl : s.lengthOk) :
    ∃ t : State, (∀ k, core.run (k + 1) s = core.run k t) ∧ t.pending = rest ∧ t.err = .ok ∧
      t.buflen = s.buflen ∧ t.buf = s.buf ∧ t.auth = (s.buflen == 68) ∧ t.f = decodeFields s.buf (s.buflen == 68) :=
  ⟨_, run_present hp (exec_decode_eq (s.present 0 rest) hl), rfl, rfl, rfl, rfl, rfl, rfl⟩

/-! ## The client query (R163) -/

/-- `VN` and `MODE` of 3, every other register 0. -/
def queryFields : Fields := (Fields.zero.set .vn 3).set .mode 3

theorem queryFields_get_other {r : FieldReg} (hvn : r ≠ .vn) (hmode : r ≠ .mode) : queryFields.get r = 0 := by
  rw [queryFields, Fields.get_set_other _ _ _ _ hmode, Fields.get_set_other _ _ _ _ hvn, Fields.get_zero]

theorem encodeMessage_queryFields : encodeMessage queryFields false = [(0, 0x1B)] := by decide

theorem decodeFields_query : decodeFields [(0, 0x1B)] false = queryFields := by decide

/-- `NEW 0` and the two `WRF` set up the query's fields, whatever the state they start in. -/
theorem run_queryFields {s : State} {rest : List HostInput}
    (hp : s.pending = buildMessage false [(.vn, 3), (.mode, 3)] ++ rest) :
    ∃ t : State, (∀ k, core.run (k + 3) s = core.run k t) ∧ t.pending = Machine.present .encode 0 :: rest ∧
      t.auth = false ∧ t.f = queryFields := by
  have hrun (k : Nat) :=
    (run_present hp (exec_new_eq 0 _ (by decide)) (k + 2)).trans <|
    (run_present rfl (exec_wrf_eq 1 .vn _ rfl) (k + 1)).trans <|
    run_present rfl (exec_wrf_eq 2 .mode _ rfl) k
  exact ⟨_, hrun, rfl, rfl, rfl⟩

/-- `ENCODE` of these fields completes the query. -/
theorem run_query {s : State} {rest : List HostInput}
    (hp : s.pending = buildMessage false [(.vn, 3), (.mode, 3)] ++ rest) :
    ∃ t : State, (∀ k, core.run (k + 4) s = core.run k t) ∧ t.pending = rest ∧ t.buflen = 48 ∧
      t.buf = [(0, 0x1B)] := by
  obtain ⟨t, hrun, hpt, hauth, hf⟩ := run_queryFields hp
  have henc := exec_encode_eq (t.present 0 rest)
  rw [State.present_f, State.present_auth, hauth, hf, encodeMessage_queryFields] at henc
  exact ⟨_, fun k => (hrun (k + 1)).trans (run_present hpt henc k), rfl, rfl, rfl⟩

/-- Settles O59. -/
theorem clientQueryScenario : Obligations.ClientQueryScenario := by
  unfold Obligations.ClientQueryScenario
  intro s hp
  obtain ⟨t, hrun, hrest, hlen, hbuf⟩ := run_query hp
  obtain ⟨u, hdec, -, herr, -, -, -, hf⟩ := run_decode hrest (.inl hlen)
  rw [hlen, hbuf] at hf
  replace hf : u.f = queryFields := hf.trans decodeFields_query
  refine ⟨t, u, hrun 0, hlen, ?_, fun x hx => ?_, (hrun 1).trans (hdec 0), herr, ?_⟩
  · rw [hbuf]; rfl
  · rw [hbuf, Memory.read, if_neg hx.symm]; rfl
  · rw [hf]
    refine ⟨rfl, rfl, fun r => queryFields_get_other, State.tsUnset_of_unset ?_⟩
    rw [hf]
    decide

/-! ## Supplying a datagram (R160) -/

/-- Bytes stored one after another are stored at once. -/
theorem Memory.writeBytes_append (m : Memory) (a : Nat) (bs cs : List Byte) :
    m.writeBytes a (bs ++ cs) = (m.writeBytes a bs).writeBytes (a + bs.length) cs := by
  induction bs generalizing m a with
  | nil => rfl
  | cons b bs ih =>
    rw [List.cons_append, Memory.writeBytes, Memory.writeBytes, ih, List.length_cons, Nat.add_right_comm, Nat.add_assoc]

/-- The stores of consecutive chunks of `d` from offset `a` on, of the widths `ws`. -/
def storeChunks (d : List Byte) : Nat → List Nat → List HostInput
  | _, [] => []
  | a, w :: ws => storeChunk d a w :: storeChunks d (a + w) ws

/-- A datagram of 48 bytes is stored in three chunks, one of 68 in five (R160). -/
theorem storeDatagram_eq_storeChunks {d : List Byte} (h : d.length = 48 ∨ d.length = 68) :
    ∃ ws : List Nat, storeDatagram d = storeChunks d 0 ws ∧ (∀ w ∈ ws, w ≤ 16) ∧ ws.sum = d.length := by
  obtain h48 | h68 := h
  · refine ⟨[16, 16, 16], ?_, by decide, h48.symm⟩
    rw [storeDatagram, if_pos h48]
    rfl
  · refine ⟨[16, 16, 16, 16, 4], ?_, by decide, h68.symm⟩
    rw [storeDatagram, if_neg (by rw [h68]; decide), if_pos h68]
    rfl

theorem storeDatagram_other {d : List Byte} (h48 : d.length ≠ 48) (h68 : d.length ≠ 68) : storeDatagram d = [] := by
  rw [storeDatagram, if_neg h48, if_neg h68]

section
variable {s : State} {m : Memory} {d : List Byte} {rest : List HostInput}

/-- An operand made of `w` bytes stores these bytes. -/
theorem beEnc_operand_of_bytes {bs : List Byte} {w : Nat} (hw : w ≤ 16) (hlen : bs.length = w) :
    beEnc (BitVec.ofNat 128 (beDec bs)).toNat w = bs := by
  rw [BitVec.toNat_ofNat, show (2 ^ 128 : Nat) = 256 ^ 16 by norm_num, beEnc_mod _ _ _ hw, ← hlen, beEnc_beDec]

/-- One chunk more of the datagram is in the buffer. -/
theorem run_storeChunk {a w : Nat} (hp : s.pending = storeChunk d a w :: rest) (hw : w ≤ 16) (hd : a + w ≤ d.length)
    (h68 : d.length ≤ 68) (hbuf : s.buf = m.writeBytes 0 (d.take a)) :
    ∃ t : State, (∀ k, core.run (k + 1) s = core.run k t) ∧ t.pending = rest ∧
      t.buf = m.writeBytes 0 (d.take (a + w)) := by
  have ha' : (BitVec.ofNat 8 a).toNat = a := Nat.mod_eq_of_lt (by omega)
  have hw' : (BitVec.ofNat 8 w).toNat = w := Nat.mod_eq_of_lt (by omega)
  have hchunk : ((d.drop a).take w).length = w := by rw [List.length_take, List.length_drop]; omega
  have hexec := exec_stu_eq (BitVec.ofNat 8 a) (BitVec.ofNat 8 w)
    (s.present (BitVec.ofNat 128 (beDec ((d.drop a).take w))) rest) (by omega) (by omega)
  rw [beEnc_opaBytes, ha', hw', State.present_opa, beEnc_operand_of_bytes hw hchunk] at hexec
  refine ⟨_, run_present hp hexec, rfl, ?_⟩
  change s.buf.writeBytes a ((d.drop a).take w) = _
  rw [hbuf, List.take_add, Memory.writeBytes_append, List.length_take_of_le (by omega), Nat.zero_add]

/-- After the chunks the buffer holds all the bytes they cover. -/
theorem run_storeChunks {ws : List Nat} {a : Nat} (hp : s.pending = storeChunks d a ws ++ rest)
    (hw : ∀ w ∈ ws, w ≤ 16) (hd : a + ws.sum ≤ d.length) (h68 : d.length ≤ 68)
    (hbuf : s.buf = m.writeBytes 0 (d.take a)) :
    ∃ t : State, (∀ k, core.run ((storeChunks d a ws).length + k) s = core.run k t) ∧ t.pending = rest ∧
      t.buf = m.writeBytes 0 (d.take (a + ws.sum)) := by
  induction ws generalizing s a with
  | nil => exact ⟨s, fun k => by rw [storeChunks, List.length_nil, Nat.zero_add], hp, hbuf⟩
  | cons w ws ih =>
    rw [List.sum_cons, ← Nat.add_assoc] at hd ⊢
    obtain ⟨t, hrun, hpt, hbt⟩ := run_storeChunk hp (hw w List.mem_cons_self) (by omega) h68 hbuf
    obtain ⟨u, hrun', hpu, hbu⟩ := ih hpt (fun w' hw' => hw w' (List.mem_cons_of_mem _ hw')) hd hbt
    refine ⟨u, fun k => ?_, hpu, hbu⟩
    rw [storeChunks, List.length_cons, Nat.add_right_comm, hrun, hrun']

theorem run_storeDatagram (hp : s.pending = storeDatagram d ++ rest) (h : d.length = 48 ∨ d.length = 68) :
    ∃ t : State, (∀ k, core.run ((storeDatagram d).length + k) s = core.run k t) ∧ t.pending = rest ∧
      t.buf = s.buf.writeBytes 0 d := by
  obtain ⟨ws, hstores, hw, hsum⟩ := storeDatagram_eq_storeChunks h
  rw [hstores] at hp ⊢
  obtain ⟨t, hrun, hpt, hbt⟩ := run_storeChunks hp hw (by omega) (by omega) (m := s.buf) rfl
  rw [hsum, Nat.zero_add, List.take_length] at hbt
  exact ⟨t, hrun, hpt, hbt⟩

/-- `SETLEN` and `DECODE` of an accepted length decode what is in the buffer. -/
theorem run_setlen_decode_ok {l : BitVec 16}
    (hp : s.pending = [Machine.present (.setlen l) 0, Machine.present .decode 0]) (hl : l = 48 ∨ l = 68) :
    ∃ t : State, core.run 2 s = .next t ∧ t.pending = [] ∧ t.err = .ok ∧ t.buflen = l ∧ t.buf = s.buf ∧
      t.auth = (l == 68) ∧ t.f = decodeFields s.buf (l == 68) := by
  obtain ⟨t, hdec, hpt, herr, hlen, hbuf, hauth, hf⟩ := run_decode
    (s := ((s.present 0 [Machine.present .decode 0]).setBuflen l).setErr .ok) rfl hl
  exact ⟨t, (run_present hp (exec_setlen_eq l _) 1).trans (hdec 0), hpt, herr, hlen, hbuf, hauth, hf⟩

/-- `SETLEN` and `DECODE` of another length raise, and the buffer, the fields and `AUTH` stay (R182). -/
theorem run_setlen_decode_raises {l : BitVec 16}
    (hp : s.pending = [Machine.present (.setlen l) 0, Machine.present .decode 0]) (hl : ¬ (l = 48 ∨ l = 68)) :
    ∃ t : State, core.run 2 s = .next t ∧ t.pending = [] ∧ t.err = .invalidLength ∧ t.sticky = true ∧
      t.f = s.f ∧ t.auth = s.auth ∧ t.buf = s.buf := by
  have hset := run_present hp (exec_setlen_eq l _) 1
  have hdec := exec_decode_raises
    (s := (((s.present 0 [Machine.present .decode 0]).setBuflen l).setErr .ok).present 0 []) hl
  exact ⟨_, hset.trans (run_present rfl hdec 0), rfl, rfl, rfl, rfl, rfl, rfl⟩

end

/-- The length presented is an accepted one exactly when the datagram's is. -/
theorem ofNat_length_eq_iff {n k : Nat} (hk : k < 65535) :
    BitVec.ofNat 16 (min n 65535) = BitVec.ofNat 16 k ↔ n = k := by
  rw [← BitVec.toNat_inj, BitVec.toNat_ofNat, BitVec.toNat_ofNat]
  omega

/-- Settles O60. -/
theorem suppliedDatagramIsDecoded : Obligations.SuppliedDatagramIsDecoded := by
  unfold Obligations.SuppliedDatagramIsDecoded
  intro s d hs hp
  have h48 := ofNat_length_eq_iff (n := d.length) (k := 48) (by decide)
  have h68 := ofNat_length_eq_iff (n := d.length) (k := 68) (by decide)
  have hlength : (supplyDatagram d).length = (storeDatagram d).length + 2 := List.length_append
  rw [hlength]
  by_cases h : d.length = 48 ∨ d.length = 68
  · obtain ⟨t, hstores, hpt, hbt⟩ := run_storeDatagram hp h
    obtain ⟨u, hrun, hpu, herr, hlen, hbuf, hauth, hf⟩ := run_setlen_decode_ok hpt (or_congr h48 h68 |>.2 h)
    refine ⟨u, (hstores 2).trans hrun, hpu, fun _ => ⟨herr, ?_, ?_, ?_⟩, fun hn => absurd h (not_or.2 hn)⟩
    · have hlenNat : u.buflen.toNat = d.length := by rw [hlen, BitVec.toNat_ofNat]; omega
      rw [State.message, hlenNat, hbuf, hbt]
      exact Memory.readBytes_writeBytes_same s.buf 0 d (by omega) hs
    · rw [hauth, beq_iff_eq]
      exact h68
    · rw [hf, hbuf, hauth]
  · obtain ⟨hn48, hn68⟩ := not_or.1 h
    rw [storeDatagram_other hn48 hn68]
    rw [supplyDatagram, storeDatagram_other hn48 hn68] at hp
    obtain ⟨u, hrun, hpu, hraised⟩ := run_setlen_decode_raises hp (mt (or_congr h48 h68).1 h)
    exact ⟨u, hrun, hpu, fun hor => absurd hor h, fun _ => hraised⟩

end Sys2Proof.Machine
end

section
/-! How a command ends (R180 to R188): the three errors, each with what raises it, and completion otherwise. -/

namespace Sys2Proof.Machine

/-! ## One command -/

/-- Settles O13. -/
theorem lengthGateAcceptsOnly48And68 : Obligations.LengthGateAcceptsOnly48And68 := by
  unfold Obligations.LengthGateAcceptsOnly48And68
  exact fun s => ⟨fun hl => ⟨_, exec_decode_eq s hl, rfl⟩, fun hl => exec_decode_raises (not_or.2 hl)⟩

theorem inRange_completes {ok : Bool} {s t : State} (h : ok = true) :
    ∃ u, inRange ok t s = .next u ∧ u.err = .ok := by
  rw [h]
  exact ⟨_, rfl, rfl⟩

/-- Each index a well-formed `WRF` or `RDF` can name is that of a register (R20, R78). -/
theorem FieldReg.exists_index {k : Nat} (h : k ≤ 14) : ∃ r : FieldReg, k = r.index := by
  obtain ⟨r, hr⟩ := Option.ne_none_iff_exists'.1 (mt FieldReg.ofIndex_eq_none.1 (Nat.not_lt.2 h))
  exact ⟨r, FieldReg.ofIndex_eq_some hr⟩

/-- A command with its fields in range completes, `DECODE` if it passes the length gate. -/
theorem exec_completes {i : Instr} {s : State} (hwf : i.wellFormed = true) (hl : i = .decode → s.lengthOk) :
    ∃ t, exec i s = .next t ∧ t.err = .ok := by
  cases i with
  | new | stu | ldu | stb | ldb => exact inRange_completes hwf
  | lds8 a => exact ⟨_, exec_lds8_eq a s (of_decide_eq_true hwf), rfl⟩
  | tsenc a => exact ⟨_, exec_tsenc_eq a s (of_decide_eq_true hwf), rfl⟩
  | tsdec a => exact ⟨_, exec_tsdec_eq a s (of_decide_eq_true hwf), rfl⟩
  | wrf a =>
    obtain ⟨r, hr⟩ := FieldReg.exists_index (of_decide_eq_true hwf)
    exact ⟨_, exec_wrf_eq a r s hr, rfl⟩
  | rdf a =>
    obtain ⟨r, hr⟩ := FieldReg.exists_index (of_decide_eq_true hwf)
    exact ⟨_, exec_rdf_eq a r s hr, rfl⟩
  | decode => exact ⟨_, exec_decode_eq s (hl rfl), rfl⟩
  | encode | setlen | u2n | n2u | qenc | qdec => exact ⟨_, rfl, rfl⟩

/-- The error of a command, read back to what raised it (R181). -/
theorem exec_error_cases {i : Instr} {s t : State} (h : exec i s = .next t) :
    t.err = .ok ∨ (i = .decode ∧ ¬ s.lengthOk ∧ t = s.raised .invalidLength) ∨
      (i.wellFormed = false ∧ t = s.raised .operandRange) := by
  cases hwf : i.wellFormed with
  | false => exact .inr (.inr ⟨rfl, answer_unique ((raisesRange_iff i s).2 hwf) h⟩)
  | true =>
    by_cases hl : i = .decode → s.lengthOk
    · obtain ⟨u, hu, hok⟩ := exec_completes hwf hl
      obtain rfl := answer_unique hu h
      exact .inl hok
    · obtain ⟨rfl, hlen⟩ := Classical.not_imp.1 hl
      exact .inr (.inl ⟨rfl, hlen, answer_unique (exec_decode_raises hlen) h⟩)

/-- The ten commands with a ranged field (R78). -/
theorem op_mem_of_not_wellFormed {i : Instr} (h : i.wellFormed = false) :
    i.op ∈ [Op.new, .wrf, .rdf, .stu, .ldu, .lds8, .stb, .ldb, .tsenc, .tsdec] := by
  cases i with
  | new | wrf | rdf | stu | ldu | lds8 | stb | ldb | tsenc | tsdec => simp [Instr.op]
  | decode | encode | setlen | u2n | n2u | qenc | qdec => cases h

/-- Settles O14: a command completes, or raises one of two errors for the reason it has. -/
theorem errorCodesComeOnlyFromTheirCommands : Obligations.ErrorCodesComeOnlyFromTheirCommands := by
  unfold Obligations.ErrorCodesComeOnlyFromTheirCommands
  refine ⟨⟨rfl, rfl, rfl, rfl⟩, fun i s t h => ?_⟩
  obtain hok | ⟨hi, hlen, rfl⟩ | ⟨hwf, rfl⟩ := exec_error_cases h
  · rw [hok]
    exact ⟨nofun, nofun, nofun, absurd rfl⟩
  · exact ⟨nofun, fun _ => ⟨hi, not_or.1 hlen⟩, nofun, fun _ => rfl⟩
  · exact ⟨nofun, nofun, fun _ => op_mem_of_not_wellFormed hwf, fun _ => rfl⟩

/-! ## One step -/

/-- A word that does not decode raises before anything else is looked at (R183). -/
theorem step_illegal {s : State} {cmd : Word} {opa : Operand} {rest : List HostInput}
    (hp : s.pending = .command cmd opa :: rest) {e : DecodeError} (hd : decode cmd = .error e) :
    step s = .next ((s.present opa rest).raised .illegalCommand) :=
  (step_command hp).trans (perform_error hd _)

/-- Settles O9. -/
theorem illegalWordRaisesIllegalCommand : Obligations.IllegalWordRaisesIllegalCommand := by
  unfold Obligations.IllegalWordRaisesIllegalCommand
  intro s cmd opa rest hp hillegal
  obtain hnone | ⟨op, hop, hm⟩ := hillegal
  · exact step_illegal hp (decode_unassigned hnone)
  · exact step_illegal hp (decode_nonzero hop hm)

/-- Settles O10. -/
theorem firstErrorThatAppliesIsRaised : Obligations.FirstErrorThatAppliesIsRaised := by
  unfold Obligations.FirstErrorThatAppliesIsRaised
  refine fun s cmd opa rest hp => ⟨fun e hd => step_illegal hp hd, fun i hd hwf => ?_, fun hd hlen => ?_,
    fun i hd hwf hl => ?_⟩
  · exact (stepRunsDecodedCommand s cmd opa rest _ hp hd).trans ((raisesRange_iff i _).2 hwf)
  · exact (stepRunsDecodedCommand s cmd opa rest _ hp hd).trans (exec_decode_raises hlen)
  · rw [stepRunsDecodedCommand s cmd opa rest i hp hd]
    exact exec_completes hwf hl

/-- Settles O5: an illegal word raises, and a legal one is a command, which completes or raises. -/
theorem commandCompletesOrOnlyRaises : Obligations.CommandCompletesOrOnlyRaises := by
  unfold Obligations.CommandCompletesOrOnlyRaises
  intro s cmd opa rest hp
  cases hd : decode cmd with
  | error e => exact ⟨_, step_illegal hp hd, .inr ⟨nofun, rfl⟩⟩
  | ok i =>
    have hstep := stepRunsDecodedCommand s cmd opa rest i hp hd
    obtain ⟨t, hexec, hcompletes | hraises⟩ := exec_completes_or_raises i (s.present opa rest)
    · obtain ⟨herr, hsticky, hopa, hpending⟩ := hcompletes
      exact ⟨t, hstep.trans hexec, .inl ⟨herr, hsticky, hopa, hpending, i, rfl, hexec⟩⟩
    · exact ⟨t, hstep.trans hexec, .inr hraises⟩

/-- Settles O6: the input presented is none, a reset, or a command. -/
theorem stepAlwaysAnswersNext : Obligations.StepAlwaysAnswersNext := by
  unfold Obligations.StepAlwaysAnswersNext
  intro s
  match hp : s.pending with
  | [] => exact ⟨_, step_idle hp⟩
  | .reset :: rest => exact ⟨_, step_reset hp⟩
  | .command cmd opa :: rest =>
    obtain ⟨t, hstep, -⟩ := commandCompletesOrOnlyRaises s cmd opa rest hp
    exact ⟨t, hstep⟩

end Sys2Proof.Machine
end

section
/-! Reset and idleness: the two steps that perform no command (R210, R220). -/

namespace Sys2Proof.Machine

/-- `STATUS` shows the block only, not what the host has still to present (R29). -/
@[simp] theorem State.hostReset_status (rest : List HostInput) :
    (State.hostReset rest).status = State.reset.status := rfl

/-- Settles O2: the step leads to the reset state with the remaining inputs, whose values are those of O1. -/
theorem resetInputRestoresResetState : Obligations.ResetInputRestoresResetState := by
  unfold Obligations.ResetInputRestoresResetState
  intro s rest hp
  obtain ⟨hf, hbuf, hauth, hlen, herr, hsticky, -, hstatus, hres⟩ := resetLeavesFreshPlainInstance
  exact ⟨State.hostReset rest, step_reset hp, State.hostReset_pending rest, hf, hbuf, hauth, hlen, herr, hsticky,
    hres, (State.hostReset_status rest).trans hstatus⟩

/-- Settles O8. -/
theorem noInputChangesNothing : Obligations.NoInputChangesNothing :=
  fun _ => step_idle

end Sys2Proof.Machine
end
